-- ==== Sys2Proof/Word.lean ====
section
/-! DEFINITION. The values of IRPC: every one is an unsigned number of a fixed width (spec R10, R11). -/

namespace Sys2Proof

/-- A command word, and the 32-bit data of a response (R60, R65). -/
abbrev Word := BitVec 32

/-- A timestamp, a duration (delta) or a buffer sample, as a register or a command word holds it: 16 bits (R10, R22,
R23, R60). A configuration says how many of them are counter bits, `TS_W` (R7; log 3). -/
abbrev Tick := BitVec 16

/-- A buffer index as a register holds it: the 7-bit cursor (R24). -/
abbrev Cursor := BitVec 7

/-- A channel number as a command word carries it (R60). -/
abbrev ChanNo := BitVec 4

end Sys2Proof
end

