-- ==== Sys2Proof/Config.lean ====
section
/-! DEFINITION. What one implementation fixes: the constants of R7, the parameters of R9, and the free value of R14. -/

namespace Sys2Proof

/-- `P_SERVICE` (R9, R90): what else is serviced when an edge on a channel is serviced. The source leaves it open,
so every claim holds for both values or names the one it needs. -/
inductive Service where
  /-- EDGE on a channel services that channel alone. -/
  | signaledOnly
  /-- EDGE on channel `a` also runs an edge step on channel `b`. -/
  | fallthrough (a b : Nat)
deriving DecidableEq, Repr

/-- The configuration record (R7, R9, R32). A default is the document's value where it gives one (R7); the other
defaults are the values `State.reset` uses (DESIGN CHOICE, logs 2 and 4). -/
structure Config where
  /-- `TS_W`, the width of timestamps and durations, in bits: timestamps wrap modulo `2 ^ TS_W`. -/
  tsW : Nat := 16
  /-- `C`, the capacity of a duration buffer, in samples. -/
  capacity : Nat := 68
  /-- `T`, the samples of a frame (`totalTimings`). -/
  samples : Nat := 67
  /-- `LEADER_LO`, the leader window's lower bound, exclusive. -/
  leaderLo : Nat := 8500
  /-- `LEADER_HI`, the leader window's upper bound, exclusive. -/
  leaderHi : Nat := 9500
  /-- `BIT_TH`, the space threshold for a 1 bit. -/
  bitTh : Nat := 1500
  /-- `NBITS`, the bits of a decoded value. -/
  nbits : Nat := 32
  /-- `N`, the number of channels. -/
  channels : Nat := 3
  /-- `P_SERVICE`. -/
  service : Service := .signaledOnly
  /-- `LAST_TS_RESET[ch]`, entry `ch` of the list (0 past its end). -/
  lastTsReset : List Tick := []
  /-- `TICK_HZ`; no rule reads it. -/
  tickHz : Nat := 1
  /-- `CLK_CAP`; no rule reads it. -/
  clkCap : Nat := 1
  /-- `CLK_CON`; no rule reads it. -/
  clkCon : Nat := 1
deriving DecidableEq, Repr

namespace Config

/-- The service parameter names two different channels, both of them present (R9). -/
def serviceOk (c : Config) : Bool :=
  match c.service with
  | .signaledOnly => true
  | .fallthrough a b => decide (a ≠ b) && decide (a < c.channels) && decide (b < c.channels)

/-- The constraints under which the spec's rules hold (R8; the last index DECODE reads is `2 + 2*(NBITS-1) + 1`), the
ranges of the parameters (R9), and that a timestamp fits the command word's field (R60) and a decoded value the
response's data (R65; log 3). -/
def wf (c : Config) : Bool :=
  decide (c.leaderLo < c.leaderHi) && decide (c.leaderHi ≤ 2 ^ 16) &&
  decide (2 ≤ c.samples) && decide (c.samples ≤ c.capacity) &&
  decide (2 * c.nbits + 1 < c.samples) && decide (c.capacity ≤ 2 ^ 7 - 1) &&
  decide (1 ≤ c.channels) && decide (c.channels ≤ 16) &&
  c.serviceOk && decide (0 < c.tickHz) &&
  decide (c.tsW ≤ 16) && decide (c.nbits ≤ 32)

/-- `LAST_TS_RESET[ch]` (R9, R22). -/
def lastTs0 (c : Config) (ch : Nat) : Tick := c.lastTsReset.getD ch 0

/-- `draw16()` (R14): an unconstrained 16-bit value, fresh at each use. The argument counts the uses, and nothing
can be proved of any value of this function (log 5). -/
opaque draw16 : Nat → Tick

end Config

end Sys2Proof
end

