-- ==== Sys2Proof/Syntax.lean ====
section
/-! DEFINITION. The operations of IRPC as syntax: one constructor per row of spec/opcode_table.json (R61). -/

namespace Sys2Proof

/-- The two ports (R62). -/
inductive Port where
  | capture
  | consumer
deriving DecidableEq, Repr

/-- An accepted command's operation and operands (R60, R61, R67). -/
inductive Instr where
  /-- EDGE `ch, ts` (R81). -/
  | edge (ch : ChanNo) (ts : Tick)
  /-- RDFC `ch` (R110). -/
  | rdfc (ch : ChanNo)
  /-- RDLD `ch` (R111). -/
  | rdld (ch : ChanNo)
  /-- RDSAMP `ch, idx` (R104). -/
  | rdsamp (ch : ChanNo) (idx : BitVec 8)
  /-- DECODE `ch` (R100). -/
  | decode (ch : ChanNo)
  /-- CLRFC `ch` (R112). -/
  | clrfc (ch : ChanNo)
  /-- CLRLD `ch` (R113). -/
  | clrld (ch : ChanNo)
deriving DecidableEq, Repr

/-- The seven assigned operation codes (R61). -/
inductive Opcode where
  | edge | rdfc | rdld | rdsamp | decode | clrfc | clrld
deriving DecidableEq, Repr

/-- The causes of a reject (R130), in the order of their codes 1 to 5. -/
inductive RejectCode where
  | reservedOpcode
  | wrongPort
  | reservedField
  | channelRange
  | indexRange
deriving DecidableEq, Repr

/-- The operation of a command. -/
def Instr.opcode : Instr → Opcode
  | .edge _ _ => .edge
  | .rdfc _ => .rdfc
  | .rdld _ => .rdld
  | .rdsamp _ _ => .rdsamp
  | .decode _ => .decode
  | .clrfc _ => .clrfc
  | .clrld _ => .clrld

/-- The channel every command names (R30). -/
def Instr.chan : Instr → ChanNo
  | .edge ch _ => ch
  | .rdfc ch => ch
  | .rdld ch => ch
  | .rdsamp ch _ => ch
  | .decode ch => ch
  | .clrfc ch => ch
  | .clrld ch => ch

/-- A line of the assembler syntax (R69), its operands plain numbers, as a programmer writes them. -/
inductive AsmLine where
  | edge (ch ts : Nat)
  | rdfc (ch : Nat)
  | rdld (ch : Nat)
  | rdsamp (ch idx : Nat)
  | decode (ch : Nat)
  | clrfc (ch : Nat)
  | clrld (ch : Nat)
  /-- The one pseudo-operation (R69, R118). -/
  | dispatch (ch : Nat)
deriving DecidableEq, Repr

/-- What a line assembles to: one command word, or the consumer sequence that DISPATCH stands for (R69). -/
inductive Assembled where
  | command (w : Word)
  | dispatch (ch : ChanNo)
deriving DecidableEq, Repr

end Sys2Proof
end

