-- ==== Sys2Proof/WellFormed.lean ====
section
/-! DEFINITION. Which commands a configuration accepts: the two range conditions of R64. The field widths of R60
are in the types of Syntax.lean. -/

namespace Sys2Proof

/-- The channel is one of `0 .. N-1` (R30, R64). -/
def Instr.channelOk (c : Config) (i : Instr) : Bool := decide (i.chan.toNat < c.channels)

/-- The buffer index of an RDSAMP is one of `0 .. C-1` (R30, R64); no other operation has one. -/
def Instr.indexOk (c : Config) : Instr → Bool
  | .rdsamp _ idx => decide (idx.toNat < c.capacity)
  | .edge _ _ | .rdfc _ | .rdld _ | .decode _ | .clrfc _ | .clrld _ => true

/-- A well-formed command (R64). -/
def Instr.wellFormed (c : Config) (i : Instr) : Bool := i.channelOk c && i.indexOk c

end Sys2Proof
end

