-- ==== Sys2Proof/Decode.lean ====
section
/-! DEFINITION. Reading a command word on a port (R60 to R68, R76), and writing one (R69). Decoding is total: a
word gives one command or one reject code (R66). -/

namespace Sys2Proof

/-! ## Fields (R60) -/

/-- `w[31:28]`, the operation code. -/
def opField (w : Word) : BitVec 4 := w.extractLsb' 28 4

/-- `w[27:24]`, the channel. -/
def chField (w : Word) : ChanNo := w.extractLsb' 24 4

/-- `w[23:16]`, the buffer index. -/
def idxField (w : Word) : BitVec 8 := w.extractLsb' 16 8

/-- `w[15:0]`, the timestamp. -/
def tsField (w : Word) : Tick := w.extractLsb' 0 16

/-- `{op, ch, idx, ts}`: the word with these four fields (R11, R60). -/
def fieldsWord (op : BitVec 4) (ch : ChanNo) (idx : BitVec 8) (ts : Tick) : Word := (op ++ ch) ++ (idx ++ ts)

/-! ## Operation codes and ports (R61, R62) -/

/-- The operation with a given code; 0 and 8 to 15 are reserved (R61). -/
def opcodeOf (o : BitVec 4) : Option Opcode :=
  match o.toNat with
  | 1 => some .edge
  | 2 => some .rdfc
  | 3 => some .rdld
  | 4 => some .rdsamp
  | 5 => some .decode
  | 6 => some .clrfc
  | 7 => some .clrld
  | _ => none

/-- The code of an operation (R61). -/
def Opcode.code : Opcode → BitVec 4
  | .edge => 1
  | .rdfc => 2
  | .rdld => 3
  | .rdsamp => 4
  | .decode => 5
  | .clrfc => 6
  | .clrld => 7

/-- The port an operation is accepted on (R61, R62). -/
def Opcode.port : Opcode → Port
  | .edge => .capture
  | .rdfc | .rdld | .rdsamp | .decode | .clrfc | .clrld => .consumer

/-- The port a command is accepted on (R62). -/
def Instr.port (i : Instr) : Port := i.opcode.port

/-- The fields an operation does not read are zero (R63). -/
def reservedZero (o : Opcode) (w : Word) : Bool :=
  match o with
  | .edge => idxField w == 0
  | .rdsamp => tsField w == 0
  | .rdfc | .rdld | .decode | .clrfc | .clrld => idxField w == 0 && tsField w == 0

/-- The command of an operation, its operands taken from the word as they stand (R67). -/
def operands (o : Opcode) (w : Word) : Instr :=
  match o with
  | .edge => .edge (chField w) (tsField w)
  | .rdfc => .rdfc (chField w)
  | .rdld => .rdld (chField w)
  | .rdsamp => .rdsamp (chField w) (idxField w)
  | .decode => .decode (chField w)
  | .clrfc => .clrfc (chField w)
  | .clrld => .clrld (chField w)

/-! ## Decoding (R66) -/

/-- The checks of R66 that a word and its port decide by themselves: opcode, port, reserved fields, in this order. -/
def decodeFields (p : Port) (w : Word) : Except RejectCode Instr :=
  match opcodeOf (opField w) with
  | none => .error .reservedOpcode
  | some o =>
    if o.port ≠ p then .error .wrongPort
    else if reservedZero o w then .ok (operands o w)
    else .error .reservedField

/-- The index check of R66 (R64): only RDSAMP has an index. -/
def indexInRange (c : Config) : Instr → Bool
  | .rdsamp _ idx => decide (idx.toNat < c.capacity)
  | .edge _ _ | .rdfc _ | .rdld _ | .decode _ | .clrfc _ | .clrld _ => true

/-- The checks of R66 that need the configuration: channel, then index (R64). `none` says that both pass. -/
def rangeReject (c : Config) (i : Instr) : Option RejectCode :=
  if c.channels ≤ i.chan.toNat then some .channelRange
  else if indexInRange c i then none
  else some .indexRange

/-- `decode_cmd(port, w)` of R66: one command, or the code of the first check that fails. -/
def decodeCmd (c : Config) (p : Port) (w : Word) : Except RejectCode Instr :=
  match decodeFields p w with
  | .error code => .error code
  | .ok i =>
    match rangeReject c i with
    | some code => .error code
    | none => .ok i

/-- The status value of a reject (R130). -/
def RejectCode.status : RejectCode → BitVec 4
  | .reservedOpcode => 1
  | .wrongPort => 2
  | .reservedField => 3
  | .channelRange => 4
  | .indexRange => 5

/-! ## Encoding (R69, R76) -/

/-- The word of a command: the patterns of R76. -/
def encode : Instr → Word
  | .edge ch ts => fieldsWord Opcode.edge.code ch 0 ts
  | .rdfc ch => fieldsWord Opcode.rdfc.code ch 0 0
  | .rdld ch => fieldsWord Opcode.rdld.code ch 0 0
  | .rdsamp ch idx => fieldsWord Opcode.rdsamp.code ch idx 0
  | .decode ch => fieldsWord Opcode.decode.code ch 0 0
  | .clrfc ch => fieldsWord Opcode.clrfc.code ch 0 0
  | .clrld ch => fieldsWord Opcode.clrld.code ch 0 0

/-- A channel operand of the assembler: one above 15 is rejected at assembly time (R69). -/
def asmChan (ch : Nat) : Option ChanNo := if ch < 16 then some (BitVec.ofNat 4 ch) else none

/-- An index operand of the assembler: one above 255 is rejected at assembly time (R69). -/
def asmIdx (idx : Nat) : Option (BitVec 8) := if idx < 256 then some (BitVec.ofNat 8 idx) else none

/-- A timestamp operand of the assembler: one above 65535 is rejected at assembly time (R69). -/
def asmTs (ts : Nat) : Option Tick := if ts < 65536 then some (BitVec.ofNat 16 ts) else none

/-- The assembler (R69): `ch >= N` and `idx >= C` are left to the block. -/
def assemble : AsmLine → Option Assembled
  | .edge ch ts => (asmChan ch).bind fun c => (asmTs ts).map fun t => .command (encode (.edge c t))
  | .rdfc ch => (asmChan ch).map fun c => .command (encode (.rdfc c))
  | .rdld ch => (asmChan ch).map fun c => .command (encode (.rdld c))
  | .rdsamp ch idx => (asmChan ch).bind fun c => (asmIdx idx).map fun i => .command (encode (.rdsamp c i))
  | .decode ch => (asmChan ch).map fun c => .command (encode (.decode c))
  | .clrfc ch => (asmChan ch).map fun c => .command (encode (.clrfc c))
  | .clrld ch => (asmChan ch).map fun c => .command (encode (.clrld c))
  | .dispatch ch => (asmChan ch).map fun c => .dispatch c

/-! ## The host's view of the decoder -/

/-- The port a word's operation belongs to; a reserved opcode belongs to none and is read on the consumer port. -/
def homePort (w : Word) : Port :=
  match opcodeOf (opField w) with
  | some o => o.port
  | none => .consumer

/-- The command that the decoder reads from a word, on the port its operation belongs to (log 18). -/
def decodeTableWord (nbits w : Nat) : Option Instr :=
  if nbits ≤ 32 ∧ w < 2 ^ nbits then
    match decodeFields (homePort (BitVec.ofNat 32 w)) (BitVec.ofNat 32 w) with
    | .ok i => some i
    | .error _ => none
  else none

end Sys2Proof
end

