-- ==== Sys2Proof/Machine/State.lean ====
section
/-! DEFINITION. The state of IRPC (R20 to R32), the ports' and the synchronizer's state between linearization points
(R42, R150), and reset (R150). -/

namespace Sys2Proof.Machine

/-- A duration buffer (R23): (index, sample) pairs, indices strictly rising. An index that is not listed is an entry
not written since reset. The unit is the 16-bit sample: IRPC has no bytes (R13, R30, R47; log 6). -/
abbrev Memory := List (Nat × Tick)

/-- A channel record: exactly the five fields of R32. -/
structure Channel where
  /-- `last_ts[ch]` (R22). -/
  lastTs : Tick
  /-- `buf[ch]` (R23). -/
  buf : Memory
  /-- `wcur[ch]` (R24). -/
  wcur : Cursor
  /-- `ld[ch]` (R25). -/
  ld : Bool
  /-- `fc[ch]` (R26). -/
  fc : Bool
deriving DecidableEq, Repr

/-- The four flag states (R70). -/
inductive FlagState where
  | idle
  | capturing
  | complete
  | recapture
deriving DecidableEq, Repr

/-- A response (R65): status 0 is OK, 1 to 5 a reject code (R130). -/
structure Response where
  status : BitVec 4
  data : Word
deriving DecidableEq, Repr

/-- A response as it is delivered on a port. -/
structure Delivery where
  port : Port
  response : Response
deriving DecidableEq, Repr

/-- The consumer port's transaction (R42): at most one command is outstanding. -/
inductive Transaction where
  /-- No command is outstanding. -/
  | idle
  /-- A command was issued and has not reached its linearization point. -/
  | requested (w : Word)
  /-- The command has taken effect, and its response is on the way to the acknowledge. -/
  | responded (r : Response)
deriving DecidableEq, Repr

/-- What can happen next (R42, R44, R80, R150). The order of events is the environment's and the clocks' (log 7). -/
inductive Event where
  /-- An edge source presents a word on the capture port (R80). -/
  | present (w : Word)
  /-- The capture domain accepts the oldest presented word and performs it: its linearization point (R43). -/
  | accept
  /-- The consumer puts a command word on the consumer port (R42). -/
  | issue (w : Word)
  /-- The outstanding command takes effect in the capture domain: its linearization point (R42). -/
  | perform
  /-- The response is delivered with the acknowledge (R42). -/
  | acknowledge
  /-- Reset is asserted (R150). -/
  | reset
deriving DecidableEq, Repr

/-- The state. `chans` is the spec's own state (R32). `cfg` is the configuration (R7, R9; log 1). `sync` and
`presented` are the ports' state (R42, R150; log 8). `schedule`, `output` and `draws` are the model's own (logs 5, 7, 8). -/
structure State where
  cfg : Config
  /-- The channel records, `0 .. N-1`. -/
  chans : List Channel
  /-- The consumer port's transaction. -/
  sync : Transaction
  /-- Words presented on the capture port and not yet accepted, oldest first. -/
  presented : List Word
  /-- The events to come, the next one first. -/
  schedule : List Event
  /-- What the last step delivered on a port. -/
  output : Option Delivery
  /-- How many free values have been drawn. -/
  draws : Nat
deriving DecidableEq, Repr

/-- IRPC has no fault: a malformed command is rejected, and nothing else is exceptional (R130, R136; log 19). -/
inductive Fault
deriving DecidableEq, Repr

/-- The refusals of the model. -/
inductive Refusal where
  /-- Raised by `exec` for an instruction that has no meaning yet; safe. No arm raises it now. -/
  | notModelled (mnemonic : String)
deriving DecidableEq, Repr

/-- A channel record after reset (R150). -/
def Channel.reset (lastTs0 : Tick) : Channel :=
  { lastTs := lastTs0, buf := [], wcur := 0, ld := false, fc := false }

/-- The machine right after reset, for any configuration (R150, R151). -/
def State.resetOf (c : Config) : State :=
  { cfg := c
    chans := (List.range c.channels).map fun ch => Channel.reset (c.lastTs0 ch)
    sync := .idle
    presented := []
    schedule := []
    output := none
    draws := 0 }

/-- The machine right after reset, with the document's constants and the values of R9's parameters that logs 2 and 4
name. -/
def State.reset : State := State.resetOf {}

end Sys2Proof.Machine
end

