-- ==== Sys2Proof/Machine/Operands.lean ====
section
/-! DEFINITION. The arithmetic and the operand forms of the operations: all unsigned (R11, R12, R67). -/

namespace Sys2Proof.Machine

/-- `sub16(a, b)` (R12): the wrapping difference. -/
def sub16 (a b : Tick) : Tick := a - b

/-- The duration from `last` to `ts` (R82): their difference modulo `2 ^ TS_W`, which is `sub16(ts, last)` for the
document's `TS_W = 16` (R7; log 3). -/
def duration (c : Config) (ts last : Tick) : Tick := BitVec.ofNat 16 ((sub16 ts last).toNat % 2 ^ c.tsW)

/-- `zext_32` of a sample (R11, R65). -/
def zextSample (t : Tick) : Word := t.setWidth 32

/-- `zext_32` of a flag (R11, R65). -/
def zextFlag (b : Bool) : Word := if b then 1 else 0

/-- The buffer index of the space of bit `b` (R73, R100). -/
def spaceIndex (b : Nat) : Nat := 2 + 2 * b + 1

/-- `bit_of(s)` (R101). -/
def bitOf (c : Config) (s : Tick) : Bool := decide (c.bitTh ≤ s.toNat)

end Sys2Proof.Machine
end

