-- ==== Sys2Proof/Machine/Flags.lean ====
section
/-! DEFINITION. The two flags (R25 to R27), their four states (R70), and the leader test that sets one (R83). -/

namespace Sys2Proof.Machine

/-- A delta is leader-shaped (R83): both comparisons strict and unsigned. -/
def leaderShaped (c : Config) (delta : Tick) : Bool :=
  decide (c.leaderLo < delta.toNat) && decide (delta.toNat < c.leaderHi)

/-- The flag state of a channel (R70). -/
def Channel.flagState (ch : Channel) : FlagState :=
  match ch.ld, ch.fc with
  | false, false => .idle
  | true, false => .capturing
  | false, true => .complete
  | true, true => .recapture

/-- `ld <- 1` and `wcur <- 0`: a capture starts (R85). -/
def Channel.startCapture (ch : Channel) : Channel := { ch with ld := true, wcur := 0 }

/-- `fc <- 1`, `wcur <- 0` and `ld <- 0`: the frame is complete (R87). -/
def Channel.finishFrame (ch : Channel) : Channel := { ch with fc := true, wcur := 0, ld := false }

/-- `fc <- 0` (R112). -/
def Channel.clearFc (ch : Channel) : Channel := { ch with fc := false }

/-- `ld <- 0` (R113): the cursor keeps its value. -/
def Channel.clearLd (ch : Channel) : Channel := { ch with ld := false }

end Sys2Proof.Machine
end

