-- ==== Sys2Proof/Machine/Ops.lean ====
section
/-! DEFINITION. The shared operations: the buffer (R13, R23), channel records (R13), free values (R14), responses and
rejects (R65, R130). -/

namespace Sys2Proof.Machine

/-! ## The buffer -/

/-- The sample at an index, or `none` for an entry not written since reset (R23). -/
def Memory.read : Memory → Nat → Option Tick
  | [], _ => none
  | (j, v) :: rest, i => if i = j then some v else Memory.read rest i

/-- `BufWrite` (R13): the entry holds the value from now on. The list stays in rising order. -/
def Memory.write : Memory → Nat → Tick → Memory
  | [], i, v => [(i, v)]
  | (j, u) :: rest, i, v =>
    if i < j then (i, v) :: (j, u) :: rest
    else if i = j then (i, v) :: rest
    else (j, u) :: Memory.write rest i v

/-- Every listed index is above `i`. -/
def Memory.above (i : Nat) (m : Memory) : Bool := m.all fun e => decide (i < e.1)

/-- The canonical form: indices strictly rising. Every value may be listed, since an unlisted entry has none (log 6). -/
def Memory.wf : Memory → Bool
  | [] => true
  | (i, _) :: rest => Memory.above i rest && Memory.wf rest

/-- Every listed index is below `n`. -/
def Memory.below (n : Nat) (m : Memory) : Bool := m.all fun e => decide (e.1 < n)

/-! ## Channel records -/

/-- `S.*[ch]`: the record of a channel. No accepted command names a channel that is absent (R30, R64; log 14). -/
def State.chan (s : State) (ch : Nat) : Channel := s.chans.getD ch (Channel.reset 0)

/-- `S.*[ch] <- v`. -/
def State.setChan (s : State) (ch : Nat) (c : Channel) : State := { s with chans := s.chans.set ch c }

/-! ## Free values -/

/-- `draw16()` (R14): the next free value, and the state in which it is used up. -/
def State.draw16 (s : State) : Tick × State := (Config.draw16 s.draws, { s with draws := s.draws + 1 })

/-- `BufRead(ch, i)` (R13): an entry not written since reset reads as `draw16()`, and each read draws again (R23). -/
def State.bufRead (s : State) (ch i : Nat) : Tick × State :=
  match (s.chan ch).buf.read i with
  | some v => (v, s)
  | none => s.draw16

/-! ## Responses -/

/-- A command ends with one response on its port (R65). On the consumer port it travels to the acknowledge (R42). -/
def State.answer (s : State) (p : Port) (r : Response) : State :=
  match p with
  | .capture => { s with output := some { port := .capture, response := r } }
  | .consumer => { s with sync := .responded r }

/-- `respond(v)` (R14): status OK and the data. -/
def State.respond (s : State) (p : Port) (v : Word) : State := s.answer p { status := 0, data := v }

/-- `raise Reject(code)` (R14, R130): status code and data 0; no other effect. -/
def State.reject (s : State) (p : Port) (code : RejectCode) : State :=
  s.answer p { status := code.status, data := 0 }

/-- An operation takes its effect if its channel and index are in range, and is rejected otherwise (R64). A word that
comes through `decodeCmd` has passed these checks already (log 13). -/
def State.accepted (s : State) (i : Instr) (effect : State) : Host.Outcome State Fault Refusal :=
  match rangeReject s.cfg i with
  | some code => .next (s.reject i.port code)
  | none => .next effect

end Sys2Proof.Machine
end

