-- ==== Sys2Proof/Machine/Consumer.lean ====
section
/-! DEFINITION. The consumer's flag operations RDFC, RDLD, CLRFC and CLRLD (R110 to R113). -/

namespace Sys2Proof.Machine

/-- RDFC `ch` (R110). -/
def execRdfc (ch : ChanNo) (s : State) : Host.Outcome State Fault Refusal :=
  s.accepted (.rdfc ch) (s.respond .consumer (zextFlag (s.chan ch.toNat).fc))

/-- RDLD `ch` (R111). -/
def execRdld (ch : ChanNo) (s : State) : Host.Outcome State Fault Refusal :=
  s.accepted (.rdld ch) (s.respond .consumer (zextFlag (s.chan ch.toNat).ld))

/-- CLRFC `ch` (R112). -/
def execClrfc (ch : ChanNo) (s : State) : Host.Outcome State Fault Refusal :=
  s.accepted (.clrfc ch) ((s.setChan ch.toNat (s.chan ch.toNat).clearFc).respond .consumer 0)

/-- CLRLD `ch` (R113). -/
def execClrld (ch : ChanNo) (s : State) : Host.Outcome State Fault Refusal :=
  s.accepted (.clrld ch) ((s.setChan ch.toNat (s.chan ch.toNat).clearLd).respond .consumer 0)

end Sys2Proof.Machine
end

