-- ==== Sys2Proof/Machine/Edge.lean ====
section
/-! DEFINITION. EDGE: the duration computer, the leader detector and the frame assembly (R81 to R90). -/

namespace Sys2Proof.Machine

/-- Step 3 (R85): a leader-shaped delta starts or restarts the capture. -/
def Channel.detect (cfg : Config) (delta : Tick) (c : Channel) : Channel :=
  if leaderShaped cfg delta then c.startCapture else c

/-- Step 4 (R86): while a leader is detected, the delta is stored at the cursor, if there is room. -/
def Channel.store (cfg : Config) (delta : Tick) (c : Channel) : Channel :=
  if c.ld = true ∧ c.wcur.toNat < cfg.capacity then
    { c with buf := c.buf.write c.wcur.toNat delta, wcur := c.wcur + 1 }
  else c

/-- Step 5 (R87): the `T`-th sample completes the frame. -/
def Channel.finish (cfg : Config) (c : Channel) : Channel :=
  if c.wcur.toNat = cfg.samples then c.finishFrame else c

/-- `edge_step(ch, ts)` on a channel's record: the five steps in order (R81). -/
def edgeStep (cfg : Config) (ts : Tick) (c : Channel) : Channel :=
  let delta := duration cfg ts c.lastTs
  let c := { c with lastTs := ts }
  ((c.detect cfg delta).store cfg delta).finish cfg

/-- `edge_step(ch, ts)` (R81). -/
def State.edgeStepOn (s : State) (ch : Nat) (ts : Tick) : State :=
  s.setChan ch (edgeStep s.cfg ts (s.chan ch))

/-- The body of EDGE (R81): the edge step, and under `FALLTHROUGH(ch, b)` a second one on `b`, in the same atomic step,
whose timestamp is free (R90). -/
def State.edgeBody (s : State) (ch : Nat) (ts : Tick) : State :=
  let s1 := s.edgeStepOn ch ts
  match s.cfg.service with
  | .signaledOnly => s1
  | .fallthrough a b =>
    if ch = a then
      let d := s1.draw16
      d.2.edgeStepOn b d.1
    else s1

/-- EDGE `ch, ts` (R81). -/
def execEdge (ch : ChanNo) (ts : Tick) (s : State) : Host.Outcome State Fault Refusal :=
  s.accepted (.edge ch ts) ((s.edgeBody ch.toNat ts).respond .capture 0)

end Sys2Proof.Machine
end

