-- ==== Sys2Proof/Machine/Mapper.lean ====
section
/-! DEFINITION. DECODE and RDSAMP: the duration-to-bit mapper and the sample read (R100 to R106). -/

namespace Sys2Proof.Machine

/-- The first `n` rounds of DECODE's loop (R100): bit `b` is `bit_of` of the space at index `2 + 2*b + 1`. -/
def State.mapBits (s : State) (ch : Nat) : Nat → Word × State
  | 0 => (0, s)
  | b + 1 =>
    let r := s.mapBits ch b
    let x := r.2.bufRead ch (spaceIndex b)
    (r.1 ||| zextFlag (bitOf s.cfg x.1) <<< b, x.2)

/-- DECODE `ch` (R100): one read for each of the `NBITS` bits (32, R7), all of them at one point. -/
def execDecode (ch : ChanNo) (s : State) : Host.Outcome State Fault Refusal :=
  let r := s.mapBits ch.toNat s.cfg.nbits
  s.accepted (.decode ch) (r.2.respond .consumer r.1)

/-- RDSAMP `ch, idx` (R104). -/
def execRdsamp (ch : ChanNo) (idx : BitVec 8) (s : State) : Host.Outcome State Fault Refusal :=
  let x := s.bufRead ch.toNat idx.toNat
  s.accepted (.rdsamp ch idx) (x.2.respond .consumer (zextSample x.1))

end Sys2Proof.Machine
end

