-- ==== Sys2Proof/Machine/Dispatch.lean ====
section
/-! DEFINITION. The meaning of each operation, one arm a constructor (R61). -/

namespace Sys2Proof.Machine

def exec (i : Instr) (s : State) : Host.Outcome State Fault Refusal :=
  match i with
  | .edge ch ts => Sys2Proof.Machine.execEdge ch ts s
  | .rdfc ch => Sys2Proof.Machine.execRdfc ch s
  | .rdld ch => Sys2Proof.Machine.execRdld ch s
  | .rdsamp ch idx => Sys2Proof.Machine.execRdsamp ch idx s
  | .decode ch => Sys2Proof.Machine.execDecode ch s
  | .clrfc ch => Sys2Proof.Machine.execClrfc ch s
  | .clrld ch => Sys2Proof.Machine.execClrld ch s

end Sys2Proof.Machine
end

