-- ==== Sys2Proof/Machine/Ports.lean ====
section
/-! DEFINITION. The moves of the ports and of the synchronizer around an operation, and its linearization point
(R42, R43, R66, R80, R130, R150), and which of them comes next (R44, R58). -/

namespace Sys2Proof.Machine

/-! ## Moves that touch no channel -/

/-- One event is over: the next one of the schedule comes next, and nothing has been delivered yet. -/
def State.advance (s : State) : State := { s with schedule := s.schedule.tail, output := none }

/-- An edge source presents a word (R80): it waits for its acceptance, behind the words presented before it. -/
def State.presentWord (s : State) (w : Word) : State := { s with presented := s.presented ++ [w] }

/-- The consumer issues a command (R42): accepted if none is outstanding, and otherwise not accepted (log 9). -/
def State.issueWord (s : State) (w : Word) : State :=
  match s.sync with
  | .idle => { s with sync := .requested w }
  | .requested _ | .responded _ => s

/-- The acknowledge (R42): the response, if there is one, is delivered, and the port is free again. -/
def State.acknowledge (s : State) : State :=
  match s.sync with
  | .responded r => { s with sync := .idle, output := some { port := .consumer, response := r } }
  | .idle | .requested _ => s

/-- The reset input (R150): both domains enter the reset state; an outstanding command and the words not yet accepted
are dropped. The configuration, the events to come and the supply of free values are not IRPC's to reset (log 20). -/
def State.assertReset (s : State) : State :=
  { State.resetOf s.cfg with schedule := s.schedule, draws := s.draws }

/-! ## What comes next -/

/-- What IRPC still has to do when nothing more comes from outside (R58): accept the presented words, and answer the
outstanding command. Which of the two it does first is the model's choice (log 15): a schedule can name any order. -/
def State.pendingEvent (s : State) : Option Event :=
  match s.presented, s.sync with
  | _ :: _, _ => some .accept
  | [], .requested _ => some .perform
  | [], .responded _ => some .acknowledge
  | [], .idle => none

/-- The event of the next step: the schedule's first, in whatever order it names them (R44), and after its last one
what is still pending, so that nothing stays pending for ever (R58). -/
def State.nextEvent (s : State) : Option Event :=
  match s.schedule with
  | e :: _ => some e
  | [] => s.pendingEvent

/-! ## Linearization points -/

/-- A word takes effect at its linearization point: it is decoded (R66), and its operation performed or the word
rejected on its port (R130). -/
def runWord (p : Port) (w : Word) (s : State) : Host.Outcome State Fault Refusal :=
  match decodeCmd s.cfg p w with
  | .ok i => exec i s
  | .error code => .next (s.reject p code)

/-- The linearization point of the oldest presented word (R43); with none presented nothing happens (log 10). -/
def acceptPresented (s : State) : Host.Outcome State Fault Refusal :=
  match s.presented with
  | [] => .next s
  | w :: rest => runWord .capture w { s with presented := rest }

/-- The linearization point of the outstanding command (R42); with none outstanding nothing happens (log 10). -/
def performRequested (s : State) : Host.Outcome State Fault Refusal :=
  match s.sync with
  | .requested w => runWord .consumer w s
  | .idle | .responded _ => .next s

end Sys2Proof.Machine
end

