-- ==== Sys2Proof/Machine/Step.lean ====
section
/-! DEFINITION. One step: the next event (R42, R44, R58). An operation is one step: it is never split (R45(d), R89).
With no event to come and nothing pending nothing happens (R95, R143). -/

namespace Sys2Proof.Machine

/-- One step. -/
def step (s : State) : Host.Outcome State Fault Refusal :=
  match s.nextEvent with
  | none => .next s.advance
  | some (.present w) => .next (s.advance.presentWord w)
  | some .accept => acceptPresented s.advance
  | some (.issue w) => .next (s.advance.issueWord w)
  | some .perform => performRequested s.advance
  | some .acknowledge => .next s.advance.acknowledge
  | some .reset => .next s.advance.assertReset

/-- `s` with a command word placed so that the very next step is its linearization point: on the capture port if its
operation belongs there, as the consumer's outstanding command otherwise (logs 7 and 18). -/
def State.withFetchWord (s : State) (nbits w : Nat) : State :=
  let word := BitVec.ofNat 32 (w % 2 ^ nbits)
  match homePort word with
  | .capture => { s with presented := word :: s.presented, schedule := .accept :: s.schedule }
  | .consumer => { s with sync := .requested word, schedule := .perform :: s.schedule }

end Sys2Proof.Machine
end

