-- ==== Sys2Proof/Machine/Dispatcher.lean ====
section
/-! DEFINITION. Sequences of operations in one linearization (R44), and the consumer sequence that the pseudo-operation
DISPATCH stands for (R118). The dispatcher is software outside IRPC (R2, R116): nothing here is a step of the machine. -/

namespace Sys2Proof.Machine

/-- Continue after a next state; a fault or a refusal ends the sequence. -/
def andThen {α : Type} (o : Host.Outcome State Fault Refusal) (k : State → Host.Outcome α Fault Refusal) :
    Host.Outcome α Fault Refusal :=
  match o with
  | .next s => k s
  | .fault r => .fault r
  | .refused r => .refused r

/-- Operations that are linearized one after another (R44). -/
def runInstrs : List Instr → State → Host.Outcome State Fault Refusal
  | [], s => .next s
  | i :: rest, s => andThen (exec i s) (runInstrs rest)

/-- The data of the response that the last consumer operation gave (R65). -/
def consumerData (s : State) : Word :=
  match s.sync with
  | .responded r => r.data
  | .idle | .requested _ => 0

/-- `DISPATCH ch` (R118), with the operations of other agents that are ordered in its three gaps: after RDFC, after
DECODE, and after CLRFC. The second component is the value forwarded, if one is. -/
def dispatchWith (ch : ChanNo) (gap1 gap2 gap3 : List Instr) (s : State) :
    Host.Outcome (State × Option Word) Fault Refusal :=
  andThen (exec (.rdfc ch) s) fun s1 =>
    if consumerData s1 = 1 then
      andThen (runInstrs gap1 s1) fun s2 =>
      andThen (exec (.decode ch) s2) fun s3 =>
      andThen (runInstrs gap2 s3) fun s4 =>
      andThen (exec (.clrfc ch) s4) fun s5 =>
      andThen (runInstrs gap3 s5) fun s6 =>
      andThen (exec (.clrld ch) s6) fun s7 => .next (s7, some (consumerData s3))
    else .next (s1, none)

end Sys2Proof.Machine
end

