-- ==== Sys2Proof/Safety.lean ====
section
/-! DEFINITION. The invariants between operations (R33), and the terms in which claims about sequences of operations
speak: the events that bring them to the ports (R42, R80), the deltas a channel receives (R82), and when a second edge step
can reach it (R90). -/

namespace Sys2Proof.Machine

/-! ## Invariants -/

/-- The first entry of the buffer holds a leader-shaped sample. -/
def Channel.leaderFirst (cfg : Config) (c : Channel) : Bool :=
  match c.buf.read 0 with
  | some d => leaderShaped cfg d
  | none => false

/-- What holds of a channel between any two operations (R33): the buffer is in canonical form and written below `T`
only (I-b), the cursor is at most `T - 1` (I-a), a capture has at least one sample (I-d), its samples are written and
the first is leader-shaped (of I-c), and a frame once completed leaves every entry of the frame written (R87). -/
abbrev Channel.Inv (cfg : Config) (c : Channel) : Prop :=
  c.buf.wf = true ∧ c.buf.below cfg.samples = true ∧ c.wcur.toNat < cfg.samples ∧
  (c.ld = true → 1 ≤ c.wcur.toNat ∧ c.leaderFirst cfg = true) ∧
  (c.ld = true → ∀ i, i < c.wcur.toNat → (c.buf.read i).isSome = true) ∧
  (c.fc = true → ∀ i, i < cfg.samples → (c.buf.read i).isSome = true)

/-- A response has status 0 to 5, and data 0 unless the status is OK (R65, R130). -/
abbrev Response.Ok (r : Response) : Prop := r.status.toNat ≤ 5 ∧ (r.status ≠ 0 → r.data = 0)

/-- A response that is on its way to the acknowledge, if there is one, is a response of R65. -/
def Transaction.respOk : Transaction → Bool
  | .responded r => decide r.Ok
  | .idle | .requested _ => true

/-- A response that the last step delivered, if there is one, is a response of R65. -/
def outputOk : Option Delivery → Bool
  | some d => decide d.response.Ok
  | none => true

/-- What holds of the machine between any two operations, from reset onward (R8, R33, R65). -/
abbrev State.Inv (s : State) : Prop :=
  s.cfg.wf = true ∧ s.chans.length = s.cfg.channels ∧ (∀ c ∈ s.chans, c.Inv s.cfg) ∧
  s.sync.respOk = true ∧ outputOk s.output = true

/-! ## Channels and their service -/

/-- The channel is present (R30), and `c` is its record. -/
abbrev State.Has (s : State) (ch : ChanNo) (c : Channel) : Prop :=
  ch.toNat < s.cfg.channels ∧ s.chans[ch.toNat]? = some c

/-- An EDGE on the channel services that channel alone (R90). -/
def notSource (cfg : Config) (ch : Nat) : Bool :=
  match cfg.service with
  | .signaledOnly => true
  | .fallthrough a _ => decide (a ≠ ch)

/-- No fallthrough edge step reaches the channel (R90, R107). -/
def notTarget (cfg : Config) (ch : Nat) : Bool :=
  match cfg.service with
  | .signaledOnly => true
  | .fallthrough _ b => decide (b ≠ ch)

/-! ## Sequences of operations -/

/-- The events of one operation and no other: an EDGE is presented and accepted (R43, R80); a consumer operation is
issued, performed and acknowledged (R42). -/
def eventsOf (i : Instr) : List Event :=
  match i.port with
  | .capture => [.present (encode i), .accept]
  | .consumer => [.issue (encode i), .perform, .acknowledge]

/-- The events of a sequence of operations, one after another (R44). -/
def linearize (is : List Instr) : List Event := is.flatMap eventsOf

/-- The response that an operation made in the state after it (R65): an EDGE's is delivered right away, a consumer
operation's is on its way to the acknowledge (log 8). -/
def responseTo (i : Instr) (t : State) : Option Response :=
  match i.port with
  | .capture => t.output.map Delivery.response
  | .consumer =>
    match t.sync with
    | .responded r => some r
    | .idle | .requested _ => none

/-- The samples of the capture that goes on, if one does: without a leader the cursor's value means nothing (R70). -/
def Channel.captured (c : Channel) : Nat := if c.ld = true then c.wcur.toNat else 0

/-- The timestamps of the EDGE operations on a channel, in order. -/
def stampsOn (ch : ChanNo) : List Instr → List Tick
  | [] => []
  | .edge k ts :: rest => if k = ch then ts :: stampsOn ch rest else stampsOn ch rest
  | .rdfc _ :: rest | .rdld _ :: rest | .rdsamp _ _ :: rest | .decode _ :: rest
  | .clrfc _ :: rest | .clrld _ :: rest => stampsOn ch rest

/-- The deltas that successive timestamps give, from the timestamp held before the first (R82, R84). -/
def deltasFrom (cfg : Config) : Tick → List Tick → List Tick
  | _, [] => []
  | last, ts :: rest => duration cfg ts last :: deltasFrom cfg ts rest

/-- The deltas that a sequence of operations gives a channel whose timestamp was `last`. -/
def deltasOn (cfg : Config) (ch : ChanNo) (last : Tick) (is : List Instr) : List Tick :=
  deltasFrom cfg last (stampsOn ch is)

/-- No delta is leader-shaped. -/
def noLeader (cfg : Config) (ds : List Tick) : Bool := ds.all fun d => !leaderShaped cfg d

/-- Every operation is an EDGE: what other agents can order between two operations of the one consumer (R16, R45). -/
def onlyEdges : List Instr → Bool
  | [] => true
  | .edge _ _ :: rest => onlyEdges rest
  | .rdfc _ :: _ | .rdld _ :: _ | .rdsamp _ _ :: _ | .decode _ :: _ | .clrfc _ :: _ | .clrld _ :: _ => false

/-- The deltas of one capture: the first leader-shaped, no other (R72, R107). -/
def oneCapture (cfg : Config) : List Tick → Bool
  | [] => false
  | d :: rest => leaderShaped cfg d && noLeader cfg rest

/-- The value whose bit `b` is the bit of the space of bit `b` among a frame's deltas (R73, R101), as a condition on
the value: a delta that is absent decides nothing, and a bit at or above `NBITS` is 0. -/
abbrev DecodesDeltas (cfg : Config) (ds : List Tick) (v : Word) : Prop :=
  ∀ b, b < 32 → (b < cfg.nbits → ∀ d, ds[3 + 2 * b]? = some d → v.getLsbD b = decide (cfg.bitTh ≤ d.toNat)) ∧
    (cfg.nbits ≤ b → v.getLsbD b = false)

/-- The value whose bit `b` is the bit of the space of bit `b` in the buffer (R100), as a condition on the value: an
entry not written decides nothing, and a bit at or above `NBITS` is 0. -/
abbrev DecodesBuffer (cfg : Config) (m : Memory) (v : Word) : Prop :=
  ∀ b, b < 32 → (b < cfg.nbits → ∀ d, m.read (3 + 2 * b) = some d → v.getLsbD b = decide (cfg.bitTh ≤ d.toNat)) ∧
    (cfg.nbits ≤ b → v.getLsbD b = false)

end Sys2Proof.Machine
end

