-- ==== Sys2Proof/Certificates/Slice0/Obligations.lean ====
section
/-! DEFINITION. The statements for the provers. Each docstring names the rule of the spec it formalises. Durations and
decoded values are stated for every `TS_W` and `NBITS` that `Config.wf` admits: with the document's 16 and 32 they are
as the rules have them, and what another value means is the model's choice (log 3). -/

open Sys2Proof Sys2Proof.Machine

/-! ## Command words -/

/-- R60, R76, R131: words written out from the spec's tables decode to what they stand for. -/
def Obligations.WordsOfTheTablesDecode : Prop :=
  decodeCmd {} .capture 0x11002710#32 = .ok (.edge 1 10000) ∧
  decodeCmd {} .consumer 0x22000000#32 = .ok (.rdfc 2) ∧
  decodeCmd {} .consumer 0x30000000#32 = .ok (.rdld 0) ∧
  decodeCmd {} .consumer 0x40430000#32 = .ok (.rdsamp 0 67) ∧
  decodeCmd {} .consumer 0x51000000#32 = .ok (.decode 1) ∧
  decodeCmd {} .consumer 0x62000000#32 = .ok (.clrfc 2) ∧
  decodeCmd {} .consumer 0x72000000#32 = .ok (.clrld 2) ∧
  decodeCmd {} .consumer 0x4F450001#32 = .error .reservedField

/-- R60, R66, R69: the word of a well-formed command is accepted on the command's port and gives the command back. -/
def Obligations.EncodedCommandDecodesToItself : Prop :=
  ∀ (cfg : Config) (i : Instr), i.wellFormed cfg = true →
    decodeCmd cfg i.port (encode i) = .ok i ∧ decodeTableWord 32 (encode i).toNat = some i

/-- R66, R67, R75: an accepted word is the one encoding of its command, on the command's port, with its operands in
range. -/
def Obligations.AcceptedWordIsTheEncodingOfItsCommand : Prop :=
  ∀ (cfg : Config) (p : Port) (w : Word) (i : Instr), decodeCmd cfg p w = .ok i →
    encode i = w ∧ i.port = p ∧ i.wellFormed cfg = true

/-- R66, R130, R131: each word on each port is accepted if no reject cause applies, and otherwise rejected with the
lowest code that applies. -/
def Obligations.LowestApplicableCodeIsReported : Prop :=
  ∀ (cfg : Config) (p : Port) (w : Word),
    let op := (w >>> 28).toNat
    let ch := ((w >>> 24) &&& 0xF#32).toNat
    let idx := ((w >>> 16) &&& 0xFF#32).toNat
    let ts := (w &&& 0xFFFF#32).toNat
    let cause1 := op = 0 ∨ 8 ≤ op
    let cause2 := ¬ (op = 1 ↔ p = .capture)
    let cause3 := (op = 1 ∧ idx ≠ 0) ∨ (op = 4 ∧ ts ≠ 0) ∨ (op ≠ 1 ∧ op ≠ 4 ∧ (idx ≠ 0 ∨ ts ≠ 0))
    let cause4 := cfg.channels ≤ ch
    let cause5 := op = 4 ∧ cfg.capacity ≤ idx
    (cause1 → decodeCmd cfg p w = .error .reservedOpcode) ∧
    (¬ cause1 → cause2 → decodeCmd cfg p w = .error .wrongPort) ∧
    (¬ cause1 → ¬ cause2 → cause3 → decodeCmd cfg p w = .error .reservedField) ∧
    (¬ cause1 → ¬ cause2 → ¬ cause3 → cause4 → decodeCmd cfg p w = .error .channelRange) ∧
    (¬ cause1 → ¬ cause2 → ¬ cause3 → ¬ cause4 → cause5 → decodeCmd cfg p w = .error .indexRange) ∧
    (¬ cause1 → ¬ cause2 → ¬ cause3 → ¬ cause4 → ¬ cause5 → ∃ i, decodeCmd cfg p w = .ok i) ∧
    RejectCode.reservedOpcode.status = 1 ∧ RejectCode.wrongPort.status = 2 ∧ RejectCode.reservedField.status = 3 ∧
    RejectCode.channelRange.status = 4 ∧ RejectCode.indexRange.status = 5

/-- R76: a word is accepted as an operation exactly when it matches the operation's row, its channel and index are in
range, and it arrives on the row's port; its operands are the row's channel, index and timestamp bits. -/
def Obligations.MatchAndMaskRowsDecideTheOperation : Prop :=
  ∀ (cfg : Config) (p : Port) (w : Word) (c : ChanNo),
    let valid := c.toNat = ((w >>> 24) &&& 0xF#32).toNat ∧ c.toNat < cfg.channels
    (∀ t : Tick, decodeCmd cfg p w = .ok (.edge c t) ↔
      w &&& 0xF0FF0000#32 = 0x10000000#32 ∧ valid ∧ t.toNat = (w &&& 0xFFFF#32).toNat ∧ p = .capture) ∧
    (decodeCmd cfg p w = .ok (.rdfc c) ↔ w &&& 0xF0FFFFFF#32 = 0x20000000#32 ∧ valid ∧ p = .consumer) ∧
    (decodeCmd cfg p w = .ok (.rdld c) ↔ w &&& 0xF0FFFFFF#32 = 0x30000000#32 ∧ valid ∧ p = .consumer) ∧
    (∀ i : BitVec 8, decodeCmd cfg p w = .ok (.rdsamp c i) ↔
      w &&& 0xF000FFFF#32 = 0x40000000#32 ∧ valid ∧ i.toNat = ((w >>> 16) &&& 0xFF#32).toNat ∧
        i.toNat < cfg.capacity ∧ p = .consumer) ∧
    (decodeCmd cfg p w = .ok (.decode c) ↔ w &&& 0xF0FFFFFF#32 = 0x50000000#32 ∧ valid ∧ p = .consumer) ∧
    (decodeCmd cfg p w = .ok (.clrfc c) ↔ w &&& 0xF0FFFFFF#32 = 0x60000000#32 ∧ valid ∧ p = .consumer) ∧
    (decodeCmd cfg p w = .ok (.clrld c) ↔ w &&& 0xF0FFFFFF#32 = 0x70000000#32 ∧ valid ∧ p = .consumer)

/-- R69: the assembler gives `{op, ch, idx, ts}`, and rejects an operand that its field cannot hold. -/
def Obligations.AssemblerPlacesOperandsOrRejectsThem : Prop :=
  (∀ ch ts, ch < 16 → ts < 65536 →
    assemble (.edge ch ts) = some (.command (BitVec.ofNat 32 (0x10000000 + ch * 0x1000000 + ts)))) ∧
  (∀ ch, ch < 16 →
    assemble (.rdfc ch) = some (.command (BitVec.ofNat 32 (0x20000000 + ch * 0x1000000))) ∧
    assemble (.rdld ch) = some (.command (BitVec.ofNat 32 (0x30000000 + ch * 0x1000000))) ∧
    assemble (.decode ch) = some (.command (BitVec.ofNat 32 (0x50000000 + ch * 0x1000000))) ∧
    assemble (.clrfc ch) = some (.command (BitVec.ofNat 32 (0x60000000 + ch * 0x1000000))) ∧
    assemble (.clrld ch) = some (.command (BitVec.ofNat 32 (0x70000000 + ch * 0x1000000))) ∧
    assemble (.dispatch ch) = some (.dispatch (BitVec.ofNat 4 ch))) ∧
  (∀ ch idx, ch < 16 → idx < 256 →
    assemble (.rdsamp ch idx) = some (.command (BitVec.ofNat 32 (0x40000000 + ch * 0x1000000 + idx * 0x10000)))) ∧
  (∀ ch x, 16 ≤ ch →
    assemble (.edge ch x) = none ∧ assemble (.rdfc ch) = none ∧ assemble (.rdld ch) = none ∧
    assemble (.rdsamp ch x) = none ∧ assemble (.decode ch) = none ∧ assemble (.clrfc ch) = none ∧
    assemble (.clrld ch) = none ∧ assemble (.dispatch ch) = none) ∧
  (∀ ch ts, 65536 ≤ ts → assemble (.edge ch ts) = none) ∧
  (∀ ch idx, 256 ≤ idx → assemble (.rdsamp ch idx) = none)

/-! ## Steps, ports and reset -/

/-- R42, R43, R44: the step of a linearization point performs the decoded operation, on the state in which the event
is over, the presented word taken, and nothing yet delivered. The schedule's first event is the next one. -/
def Obligations.StepPerformsTheDecodedOperation : Prop :=
  (∀ (s : State) (w : Word) (ws : List Word) (i : Instr),
    s.nextEvent = some .accept → s.presented = w :: ws → decodeCmd s.cfg .capture w = .ok i →
    step s = exec i { s with schedule := s.schedule.tail, presented := ws, output := none }) ∧
  (∀ (s : State) (w : Word) (i : Instr),
    s.nextEvent = some .perform → s.sync = .requested w → decodeCmd s.cfg .consumer w = .ok i →
    step s = exec i { s with schedule := s.schedule.tail, output := none }) ∧
  (∀ (s : State) (e : Event) (rest : List Event), s.schedule = e :: rest → s.nextEvent = some e)

/-- R130, R136: a rejected command is answered with its code and data 0 on its port, and changes no state: no channel,
and nothing else but that the word is taken from the port. -/
def Obligations.RejectedWordChangesNothing : Prop :=
  (∀ (s : State) (w : Word) (ws : List Word) (code : RejectCode),
    s.nextEvent = some .accept → s.presented = w :: ws → decodeCmd s.cfg .capture w = .error code →
    step s = .next { s with
      schedule := s.schedule.tail, presented := ws,
      output := some { port := .capture, response := { status := code.status, data := 0 } } }) ∧
  (∀ (s : State) (w : Word) (code : RejectCode),
    s.nextEvent = some .perform → s.sync = .requested w → decodeCmd s.cfg .consumer w = .error code →
    step s = .next { s with
      schedule := s.schedule.tail, output := none, sync := .responded { status := code.status, data := 0 } })

/-- R150: the reset input, in every state, puts every channel in its reset state; an outstanding command is abandoned
with no response, and an EDGE that has not been accepted is dropped. `State.resetOf` has the same channels. -/
def Obligations.ResetInputResetsEveryChannel : Prop :=
  (∀ (s : State) (rest : List Event), s.schedule = .reset :: rest →
    ∃ t, step s = .next t ∧ t.cfg = s.cfg ∧ t.chans = (State.resetOf s.cfg).chans ∧
      t.sync = .idle ∧ t.presented = [] ∧ t.output = none) ∧
  (∀ (cfg : Config), (State.resetOf cfg).chans.length = cfg.channels ∧ ∀ ch, ch < cfg.channels →
    ∃ c, (State.resetOf cfg).chans[ch]? = some c ∧ c.ld = false ∧ c.fc = false ∧ c.wcur = 0 ∧
      (∀ x, cfg.lastTsReset[ch]? = some x → c.lastTs = x) ∧ ∀ i, c.buf.read i = none)

/-- R33: the state after reset meets the invariant, for every configuration that meets R8. -/
def Obligations.ResetStateMeetsTheInvariant : Prop :=
  (∀ cfg : Config, cfg.wf = true → (State.resetOf cfg).Inv) ∧ State.reset.Inv

/-- R33 (I-a), (I-b), (I-d), the part of (I-c) that one state shows, and R65: every step, from every state that meets
the invariant, gives a state that meets it. -/
def Obligations.EveryStepKeepsTheInvariant : Prop :=
  ∀ s t : State, s.Inv → step s = .next t → t.Inv

/-- R5, R95, R143: when no event comes and nothing is pending, nothing happens, however long it lasts. -/
def Obligations.WaitingChangesNothing : Prop :=
  ∀ (s : State) (n : Nat), s.schedule = [] → s.presented = [] → s.sync = .idle → 0 < n →
    Host.Core.run Sys2Proof.core n s = .next { s with output := none }

/-- R42, R80: what the moves of the ports do. The consumer port accepts a command when none is outstanding, and no
other (that the word is then not taken is the model's choice, log 9); the acknowledge delivers the response and frees
the port; a presented word waits behind those presented before it. -/
def Obligations.PortsMoveWordsAndTouchNothingElse : Prop :=
  ∀ (s : State) (rest : List Event) (w : Word),
    (s.schedule = .issue w :: rest → s.sync = .idle →
      step s = .next { s with schedule := rest, output := none, sync := .requested w }) ∧
    (s.schedule = .issue w :: rest → s.sync ≠ .idle → step s = .next { s with schedule := rest, output := none }) ∧
    (∀ r, s.nextEvent = some .acknowledge → s.sync = .responded r →
      step s = .next { s with
        schedule := s.schedule.tail, sync := .idle, output := some { port := .consumer, response := r } }) ∧
    (s.schedule = .present w :: rest →
      step s = .next { s with schedule := rest, output := none, presented := s.presented ++ [w] })

/-- R42, R43, R44: only a linearization point or reset changes a channel; no step changes the configuration (R28) or
the number of channels (R154). -/
def Obligations.OnlyLinearizationPointsChangeChannels : Prop :=
  ∀ s t : State, step s = .next t →
    t.cfg = s.cfg ∧
    (s.chans.length = s.cfg.channels → t.chans.length = s.chans.length) ∧
    (s.nextEvent ≠ some .accept → s.nextEvent ≠ some .perform → s.nextEvent ≠ some .reset →
      t.chans = s.chans)

/-- R42, R58, bounded: an outstanding command, once the synchronizer performs it and then acknowledges it, is answered
on the consumer port with the response of its linearization point, whatever edges and further issues come before and
in between. -/
def Obligations.OutstandingCommandIsAnswered : Prop :=
  ∀ (s : State) (w : Word) (before between rest : List Event),
    s.sync = .requested w →
    (∀ e ∈ before ++ between, e = .accept ∨ (∃ x, e = .present x) ∨ ∃ x, e = .issue x) →
    s.schedule = before ++ .perform :: between ++ .acknowledge :: rest →
    ∃ (u v t : State) (r : Response),
      Host.Core.run Sys2Proof.core before.length s = .next u ∧ step u = .next v ∧ v.sync = .responded r ∧
      Host.Core.run Sys2Proof.core (before.length + between.length + 2) s = .next t ∧
      t.sync = .idle ∧ t.output = some { port := .consumer, response := r } ∧ t.schedule = rest

/-- R58: an outstanding command is acknowledged after finitely many steps, unless reset comes: whatever the events to
come are and in whatever order, with the response of its linearization point, which is one of these steps. So is a
command that is issued with none outstanding. (That what is pending follows the schedule's last event is how the model
holds R58, log 15; no rule rests on the bound.) -/
def Obligations.EveryIssuedCommandIsAcknowledged : Prop :=
  let acknowledged := fun (s : State) (w : Word) =>
    ∃ (k n : Nat) (u v t : State) (r : Response), k < n ∧ n ≤ 3 * s.schedule.length + s.presented.length + 2 ∧
      Host.Core.run Sys2Proof.core k s = .next u ∧ u.nextEvent = some .perform ∧ u.sync = .requested w ∧
      step u = .next v ∧ v.sync = .responded r ∧
      Host.Core.run Sys2Proof.core n s = .next t ∧ t.sync = .idle ∧
      t.output = some { port := .consumer, response := r }
  (∀ (s : State) (w : Word), .reset ∉ s.schedule → s.sync = .requested w → acknowledged s w) ∧
  (∀ (s : State) (w : Word) (rest : List Event), .reset ∉ s.schedule → s.sync = .idle →
    s.schedule = .issue w :: rest → acknowledged s w)

/-- R58, R133: every presented word is accepted after finitely many steps, unless reset comes: whatever the events to
come are and whatever the consumer does, with the words presented before it accepted before it, and the acceptance of
an EDGE performs it. (How the model holds R58: log 15; no rule rests on the bound.) -/
def Obligations.EveryPresentedEdgeIsPerformed : Prop :=
  ∀ (s : State) (before after : List Word) (w : Word), .reset ∉ s.schedule → s.presented = before ++ w :: after →
    ∃ (n : Nat) (u : State) (later : List Word), n ≤ s.schedule.length + before.length ∧
      Host.Core.run Sys2Proof.core n s = .next u ∧ u.cfg = s.cfg ∧ u.nextEvent = some .accept ∧
      u.presented = w :: (after ++ later) ∧
      ∀ ch ts, decodeCmd s.cfg .capture w = .ok (.edge ch ts) →
        ∃ t, step u = .next t ∧ t.presented = after ++ later ∧
          exec (.edge ch ts) { u with schedule := u.schedule.tail, presented := after ++ later, output := none } =
            .next t ∧
          t.output = some { port := .capture, response := { status := 0, data := 0 } }

/-- R54, R58, R143: neither domain can stall the other for ever. From every state, reset among the events to come or
not, finitely many steps lead to one in which no event is to come, no word waits and no command is outstanding (how
the model holds R58: log 15). -/
def Obligations.NothingStaysPending : Prop :=
  ∀ s : State, ∃ (n : Nat) (t : State), n ≤ 3 * s.schedule.length + s.presented.length + 2 ∧
    Host.Core.run Sys2Proof.core n s = .next t ∧ t.schedule = [] ∧ t.presented = [] ∧ t.sync = .idle

/-- R9, R40: no rule depends on the tick rate or on the clocks of the two domains. -/
def Obligations.StepsDoNotDependOnTheClocks : Prop :=
  ∀ (s t : State) (hz cap con : Nat), step s = .next t →
    step { s with cfg := { s.cfg with tickHz := hz, clkCap := cap, clkCon := con } } =
      .next { t with cfg := { t.cfg with tickHz := hz, clkCap := cap, clkCon := con } }

/-- R44: every linearization is admitted. For any sequence of operations, the run of its events, a presentation and an
acceptance for each EDGE and an issue, a linearization point and an acknowledge for each consumer operation, leaves the
same channels as the operations one after another do, and delivers after each operation's last event the response that
the operation makes there, on its port. (The events are the model's form of R42 to R44, log 7; that the count of free
values agrees too is said of the model's counter, log 5.) -/
def Obligations.EveryLinearizationIsARun : Prop :=
  ∀ s : State, s.sync = .idle → s.presented = [] →
    (∀ is : List Instr, ∃ t u : State,
      Host.Core.run Sys2Proof.core (linearize is).length { s with schedule := linearize is } = .next t ∧
      runInstrs is s = .next u ∧ t.chans = u.chans ∧ t.draws = u.draws ∧ t.cfg = u.cfg ∧
      t.sync = .idle ∧ t.presented = [] ∧ t.schedule = []) ∧
    (∀ (before after : List Instr) (i : Instr), ∃ (t u v : State) (r : Response),
      Host.Core.run Sys2Proof.core (linearize (before ++ [i])).length
        { s with schedule := linearize (before ++ i :: after) } = .next t ∧
      runInstrs before s = .next u ∧ exec i u = .next v ∧ responseTo i v = some r ∧
      t.output = some { port := i.port, response := r })

/-! ## EDGE -/

/-- R82, R84, R85, R86, R87: the five steps of the edge step on the channel an EDGE names, on every record, also one
no run reaches, under both policies; the delta is the difference modulo `2 ^ TS_W`, by R7's default `2^16` (for another
width: log 3). EDGE is answered with (0, 0); where no fallthrough starts, nothing else changes (R88). -/
def Obligations.EdgeRunsTheFiveSteps : Prop :=
  ∀ (s : State) (ch : ChanNo) (ts : Tick) (c : Channel), s.cfg.wf = true → s.Has ch c →
    let delta := (ts.toNat + 65536 - c.lastTs.toNat) % 2 ^ s.cfg.tsW
    let leader := s.cfg.leaderLo < delta ∧ delta < s.cfg.leaderHi
    let ld3 := leader ∨ c.ld = true
    let w3 := if leader then 0 else c.wcur.toNat
    let stores := ld3 ∧ w3 < s.cfg.capacity
    let w4 := if stores then w3 + 1 else w3
    let completes := w4 = s.cfg.samples
    ∃ (t : State) (c' : Channel), exec (.edge ch ts) s = .next t ∧ t.Has ch c' ∧
      t.output = some { port := .capture, response := { status := 0, data := 0 } } ∧
      (notSource s.cfg ch.toNat = true →
        t = { s with chans := s.chans.set ch.toNat c', output := t.output }) ∧
      c'.lastTs = ts ∧
      (stores → ∃ x : Tick, x.toNat = delta ∧ c'.buf.read w3 = some x ∧ ∀ i, i ≠ w3 → c'.buf.read i = c.buf.read i) ∧
      (¬ stores → c'.buf = c.buf) ∧
      (completes → c'.fc = true ∧ c'.wcur = 0 ∧ c'.ld = false) ∧
      (¬ completes → c'.fc = c.fc ∧ c'.wcur.toNat = w4 ∧ (c'.ld = true ↔ ld3))

/-- R91: the transitions E1 to E4 of an EDGE under `SIGNALED_ONLY`, with the flag states they lead from and to. The
case that fits is decided by the delta, `ld` and the cursor. -/
def Obligations.EdgeMakesTheTransitionsOfR91 : Prop :=
  ∀ (s : State) (ch : ChanNo) (ts : Tick) (c : Channel),
    s.cfg.wf = true → s.Has ch c → s.cfg.service = .signaledOnly → c.wcur.toNat < s.cfg.samples →
    let d := duration s.cfg ts c.lastTs
    ∃ c' : Channel,
      exec (.edge ch ts) s = .next { s with
        chans := s.chans.set ch.toNat c',
        output := some { port := .capture, response := { status := 0, data := 0 } } } ∧
      (leaderShaped s.cfg d = true →
        c' = { c with lastTs := ts, buf := c.buf.write 0 d, wcur := 1, ld := true } ∧
        (c.flagState = .idle ∨ c.flagState = .capturing → c'.flagState = .capturing) ∧
        (c.flagState = .complete ∨ c.flagState = .recapture → c'.flagState = .recapture)) ∧
      (leaderShaped s.cfg d = false → c.ld = false →
        c' = { c with lastTs := ts } ∧ c'.flagState = c.flagState ∧
        (c.flagState = .idle ∨ c.flagState = .complete)) ∧
      (leaderShaped s.cfg d = false → c.ld = true → c.wcur.toNat + 2 ≤ s.cfg.samples →
        c' = { c with lastTs := ts, buf := c.buf.write c.wcur.toNat d, wcur := c.wcur + 1 } ∧
        c'.flagState = c.flagState ∧ (c.flagState = .capturing ∨ c.flagState = .recapture)) ∧
      (leaderShaped s.cfg d = false → c.ld = true → c.wcur.toNat + 1 = s.cfg.samples →
        c' = { lastTs := ts, buf := c.buf.write (s.cfg.samples - 1) d, wcur := 0, ld := false, fc := true } ∧
        c'.flagState = .complete ∧ (c.flagState = .capturing ∨ c.flagState = .recapture))

/-- R83: the leader window alone decides whether an edge starts a capture, whatever the flags and the cursor are: both
bounds excluded, 8501 to 9499 with the defaults. The delta is measured modulo `2 ^ TS_W` (log 3). -/
def Obligations.LeaderWindowDecidesWhatStartsACapture : Prop :=
  (∀ (s : State) (ch : ChanNo) (ts : Tick) (c : Channel),
    s.cfg.wf = true → s.Has ch c → notSource s.cfg ch.toNat = true → c.wcur.toNat < s.cfg.samples →
    let delta := (ts.toNat + 65536 - c.lastTs.toNat) % 2 ^ s.cfg.tsW
    ∃ t c', exec (.edge ch ts) s = .next t ∧ t.Has ch c' ∧
      (s.cfg.leaderLo < delta ∧ delta < s.cfg.leaderHi →
        c'.ld = true ∧ c'.wcur = 1 ∧ ∃ x, c'.buf.read 0 = some x ∧ x.toNat = delta) ∧
      (delta ≤ s.cfg.leaderLo ∨ s.cfg.leaderHi ≤ delta →
        (c'.ld = true → c.ld = true ∧ c'.wcur = c.wcur + 1) ∧ (c.wcur ≠ 0 → c'.buf.read 0 = c.buf.read 0))) ∧
  ∀ d : Tick, leaderShaped {} d = true ↔ 8501 ≤ d.toNat ∧ d.toNat ≤ 9499

/-- R94: a gap of `g` ticks is measured as `g` modulo `2 ^ TS_W`, by R7's default `2^16` (for another width: log 3);
the measure is the true gap exactly when that is below it. Stated of the sample that a capturing channel stores (at
index 0 if it is leader-shaped, R85). -/
def Obligations.StoredDeltaIsTheGapModuloTheTimestampRange : Prop :=
  ∀ (s : State) (ch : ChanNo) (g : Nat) (c : Channel),
    s.cfg.wf = true → s.Has ch c → notSource s.cfg ch.toNat = true → c.ld = true → c.wcur.toNat < s.cfg.samples →
    let ts := BitVec.ofNat 16 (c.lastTs.toNat + g)
    let at0 := leaderShaped s.cfg (duration s.cfg ts c.lastTs)
    ∃ t c' x, exec (.edge ch ts) s = .next t ∧ t.Has ch c' ∧
      c'.buf.read (if at0 = true then 0 else c.wcur.toNat) = some x ∧ x.toNat = g % 2 ^ s.cfg.tsW ∧
      (x.toNat = g ↔ g < 2 ^ s.cfg.tsW)

/-- R90: under `SIGNALED_ONLY`, an EDGE changes its own channel alone. Under `FALLTHROUGH(a, b)`, an EDGE on `a` does
what `SIGNALED_ONLY` would do with it and then, in the same step, an edge step on `b` with some timestamp, which is
then `b`'s; an EDGE on another channel does what `SIGNALED_ONLY` would do. -/
def Obligations.FallthroughServicesTheSecondChannel : Prop :=
  ∀ (s s' t1 : State) (a b ch : ChanNo) (ts : Tick),
    s.cfg.wf = true → s.chans.length = s.cfg.channels → s.cfg.service = .fallthrough a.toNat b.toNat →
    s' = { s with cfg := { s.cfg with service := .signaledOnly } } →
    ch.toNat < s.cfg.channels → exec (.edge ch ts) s' = .next t1 →
    (∃ c, t1 = { s' with chans := s.chans.set ch.toNat c, output := t1.output }) ∧
    (ch ≠ a → exec (.edge ch ts) s = .next { t1 with cfg := s.cfg }) ∧
    (ch = a → ∃ (x : Tick) (t2 : State) (cb : Channel) (draws : Nat),
      exec (.edge b x) t1 = .next t2 ∧ exec (.edge ch ts) s = .next { t2 with cfg := s.cfg, draws := draws } ∧
      t2.Has b cb ∧ cb.lastTs = x)

/-- R17, R88, R89: the frame of EDGE, under both policies. It completes with the response (0, 0), leaves its
timestamp, and changes no channel but its own and the one its service falls through to, nor the ports, the transaction
or the configuration. -/
def Obligations.EdgeLeavesEverythingElseAlone : Prop :=
  ∀ (s : State) (ch : ChanNo) (ts : Tick) (c : Channel), s.cfg.wf = true → s.Has ch c →
    ∃ t c', exec (.edge ch ts) s = .next t ∧
      t.output = some { port := .capture, response := { status := 0, data := 0 } } ∧
      t.Has ch c' ∧ c'.lastTs = ts ∧
      t.cfg = s.cfg ∧ t.sync = s.sync ∧ t.presented = s.presented ∧ t.schedule = s.schedule ∧
      t.chans.length = s.chans.length ∧
      ∀ k, k ≠ ch.toNat → s.cfg.service ≠ .fallthrough ch.toNat k → t.chans[k]? = s.chans[k]?

/-- R152: the first EDGE on a channel after reset measures from `LAST_TS_RESET[ch]`. -/
def Obligations.FirstEdgeMeasuresFromTheResetTimestamp : Prop :=
  ∀ (cfg : Config) (ch : ChanNo) (ts : Tick),
    cfg.wf = true → ch.toNat < cfg.channels → notSource cfg ch.toNat = true →
    let d := duration cfg ts (cfg.lastTsReset.getD ch.toNat 0)
    ∃ t c', exec (.edge ch ts) (State.resetOf cfg) = .next t ∧ t.Has ch c' ∧ c'.lastTs = ts ∧ c'.fc = false ∧
      (leaderShaped cfg d = true → c'.flagState = .capturing ∧ c'.wcur = 1 ∧ c'.buf.read 0 = some d) ∧
      (leaderShaped cfg d = false → c'.flagState = .idle ∧ c'.wcur = 0 ∧ ∀ i, c'.buf.read i = none)

/-! ## Consumer operations -/

/-- R110: RDFC, from its word on the consumer port, responds `zext_32(fc[ch])` and changes nothing but the port's
transaction. -/
def Obligations.RdfcAnswersFrameComplete : Prop :=
  ∀ (s : State) (ch : ChanNo) (c : Channel), s.Has ch c →
    decodeCmd s.cfg .consumer (BitVec.ofNat 32 (0x20000000 + ch.toNat * 0x1000000)) = .ok (.rdfc ch) ∧
    exec (.rdfc ch) s = .next { s with sync := .responded { status := 0, data := if c.fc then 1 else 0 } }

/-- R111: RDLD, from its word on the consumer port, responds `zext_32(ld[ch])` and changes nothing but the port's
transaction. -/
def Obligations.RdldAnswersLeaderDetected : Prop :=
  ∀ (s : State) (ch : ChanNo) (c : Channel), s.Has ch c →
    decodeCmd s.cfg .consumer (BitVec.ofNat 32 (0x30000000 + ch.toNat * 0x1000000)) = .ok (.rdld ch) ∧
    exec (.rdld ch) s = .next { s with sync := .responded { status := 0, data := if c.ld then 1 else 0 } }

/-- R104, R23, R105: RDSAMP, from its word on the consumer port, responds the entry, zero-extended, whatever the flags
are; an entry not written since reset answers a fresh free value (the counter of free values is the model's, log 5).
It changes nothing else. -/
def Obligations.RdsampAnswersTheSample : Prop :=
  ∀ (s : State) (ch : ChanNo) (idx : BitVec 8) (c : Channel), s.Has ch c → idx.toNat < s.cfg.capacity →
    decodeCmd s.cfg .consumer (BitVec.ofNat 32 (0x40000000 + ch.toNat * 0x1000000 + idx.toNat * 0x10000)) =
      .ok (.rdsamp ch idx) ∧
    (∀ x, c.buf.read idx.toNat = some x →
      exec (.rdsamp ch idx) s = .next { s with sync := .responded { status := 0, data := x.setWidth 32 } }) ∧
    (c.buf.read idx.toNat = none →
      exec (.rdsamp ch idx) s = .next { s with
        sync := .responded { status := 0, data := (Config.draw16 s.draws).setWidth 32 }, draws := s.draws + 1 })

/-- R100, R101, R103, R105: DECODE, from its word on the consumer port, responds the bits of the spaces at indices
3, 5, ..., one for each of the `NBITS` bits (32 by R7's default, up to index 65), whatever the flags are; a bit at or
above `NBITS` is 0 (log 3). A bit whose entry is not written is left open. It changes nothing else of the
spec's state. -/
def Obligations.DecodeAnswersTheSpaceBits : Prop :=
  ∀ (s : State) (ch : ChanNo) (c : Channel), s.Has ch c →
    decodeCmd s.cfg .consumer (BitVec.ofNat 32 (0x50000000 + ch.toNat * 0x1000000)) = .ok (.decode ch) ∧
    ∃ (v : Word) (draws : Nat),
      exec (.decode ch) s = .next { s with sync := .responded { status := 0, data := v }, draws := draws } ∧
      ∀ b, b < 32 →
        (b < s.cfg.nbits → ∀ x, c.buf.read (3 + 2 * b) = some x → v.getLsbD b = decide (s.cfg.bitTh ≤ x.toNat)) ∧
        (s.cfg.nbits ≤ b → v.getLsbD b = false)

/-- R23 in a DECODE: each space not written since reset counts as a free value of its own, drawn in the order of the
loop (the counter of free values and this order are the model's, log 5). -/
def Obligations.DecodeDrawsAFreeValueForEachUnwrittenSpace : Prop :=
  ∀ (s : State) (ch : ChanNo) (c : Channel), s.Has ch c →
    let unwritten := fun b : Nat => (List.range b).countP fun k => (c.buf.read (3 + 2 * k)).isNone
    ∃ v : Word,
      exec (.decode ch) s = .next { s with
        sync := .responded { status := 0, data := v }, draws := s.draws + unwritten s.cfg.nbits } ∧
      ∀ b, b < 32 → b < s.cfg.nbits → c.buf.read (3 + 2 * b) = none →
        v.getLsbD b = decide (s.cfg.bitTh ≤ (Config.draw16 (s.draws + unwritten b)).toNat)

/-- R112: CLRFC, from its word on the consumer port, clears `fc` of its channel, responds 0, and changes nothing else.
-/
def Obligations.ClrfcClearsFrameComplete : Prop :=
  ∀ (s : State) (ch : ChanNo) (c : Channel), s.Has ch c →
    decodeCmd s.cfg .consumer (BitVec.ofNat 32 (0x60000000 + ch.toNat * 0x1000000)) = .ok (.clrfc ch) ∧
    exec (.clrfc ch) s = .next { s with
      chans := s.chans.set ch.toNat { c with fc := false }, sync := .responded { status := 0, data := 0 } }

/-- R113: CLRLD, from its word on the consumer port, clears `ld` of its channel, responds 0, and changes nothing else;
the cursor keeps its value. -/
def Obligations.ClrldClearsLeaderDetected : Prop :=
  ∀ (s : State) (ch : ChanNo) (c : Channel), s.Has ch c →
    decodeCmd s.cfg .consumer (BitVec.ofNat 32 (0x70000000 + ch.toNat * 0x1000000)) = .ok (.clrld ch) ∧
    exec (.clrld ch) s = .next { s with
      chans := s.chans.set ch.toNat { c with ld := false }, sync := .responded { status := 0, data := 0 } }

/-- R64: an operation on an absent channel answers code 4 and an RDSAMP of an absent entry code 5, on the operation's
port, with no other effect. -/
def Obligations.OperandsOutOfRangeAreRejected : Prop :=
  (∀ (s : State) (ch : ChanNo) (ts : Tick), s.cfg.channels ≤ ch.toNat →
    exec (.edge ch ts) s = .next { s with
      output := some { port := .capture, response := { status := 4, data := 0 } } }) ∧
  (∀ (s : State) (i : Instr), s.cfg.channels ≤ i.chan.toNat → i.port = .consumer →
    exec i s = .next { s with sync := .responded { status := 4, data := 0 } }) ∧
  (∀ (s : State) (ch : ChanNo) (idx : BitVec 8), ch.toNat < s.cfg.channels → s.cfg.capacity ≤ idx.toNat →
    exec (.rdsamp ch idx) s = .next { s with sync := .responded { status := 5, data := 0 } })

/-- R102: a DECODE reads nothing but the spaces of its `NBITS` bits (log 3): two states whose buffers agree on these
answer the same, whatever else differs: the leader samples, the marks, the last sample, the flags, the cursor, the
timestamp, other channels. The count of free values drawn, on which the bit of an unwritten space rests, is the same in
both (log 5). (That each written space decides its bit is DecodeAnswersTheSpaceBits.) -/
def Obligations.DecodeDependsOnTheSpacesAlone : Prop :=
  ∀ (s s' t t' : State) (ch : ChanNo) (c c' : Channel),
    s.Has ch c → s'.Has ch c' → s.cfg.bitTh = s'.cfg.bitTh → s.cfg.nbits = s'.cfg.nbits →
    s.draws = s'.draws → (∀ b, b < s.cfg.nbits → c.buf.read (3 + 2 * b) = c'.buf.read (3 + 2 * b)) →
    exec (.decode ch) s = .next t → exec (.decode ch) s' = .next t' → t.sync = t'.sync

/-- R106: DECODE gives the value that the RDSAMP reads of its spaces give, each through `bit_of`, in any of their
interleavings with operations that are no edge step on the channel. Stated for written entries, bit by bit. -/
def Obligations.DecodeAgreesWithSampleReads : Prop :=
  ∀ (s u t t' : State) (ch : ChanNo) (c : Channel) (is : List Instr) (b : Nat) (x : Tick) (v r : Word),
    s.cfg.wf = true → s.Has ch c → notTarget s.cfg ch.toNat = true →
    stampsOn ch is = [] → runInstrs is s = .next u →
    b < s.cfg.nbits → c.buf.read (3 + 2 * b) = some x →
    exec (.rdsamp ch (BitVec.ofNat 8 (3 + 2 * b))) u = .next t → t.sync = .responded { status := 0, data := r } →
    exec (.decode ch) s = .next t' → t'.sync = .responded { status := 0, data := v } →
    v.getLsbD b = decide (s.cfg.bitTh ≤ r.toNat)

/-- R50: no read changes a channel, the ports' words or the configuration; a second clear leaves the state as the
first left it. -/
def Obligations.ReadsHaveNoEffectAndClearsAreIdempotent : Prop :=
  (∀ (s t : State) (i : Instr),
    (∃ ch, i = .rdfc ch ∨ i = .rdld ch ∨ i = .decode ch ∨ ∃ idx, i = .rdsamp ch idx) → exec i s = .next t →
    t.chans = s.chans ∧ t.cfg = s.cfg ∧ t.presented = s.presented ∧ t.schedule = s.schedule ∧ t.output = s.output) ∧
  (∀ (s t : State) (i : Instr), (∃ ch, i = .clrfc ch ∨ i = .clrld ch) → exec i s = .next t → exec i t = .next t)

/-- R115: the transitions of the flag state that the two clears make; the cursor and the buffer are kept. (That there
are no others but R91's and reset's is FlagStateMovesOnlyAlongTheTransitions.) -/
def Obligations.ClearsMakeTheTransitionsOfR115 : Prop :=
  ∀ (s : State) (ch : ChanNo) (c : Channel), s.Has ch c →
    ∃ t c' u c'', exec (.clrfc ch) s = .next t ∧ t.Has ch c' ∧ exec (.clrld ch) s = .next u ∧ u.Has ch c'' ∧
      c'.wcur = c.wcur ∧ c'.buf = c.buf ∧ c''.wcur = c.wcur ∧ c''.buf = c.buf ∧
      (c.flagState = .idle → c'.flagState = .idle ∧ c''.flagState = .idle) ∧
      (c.flagState = .capturing → c'.flagState = .capturing ∧ c''.flagState = .idle) ∧
      (c.flagState = .complete → c'.flagState = .idle ∧ c''.flagState = .complete) ∧
      (c.flagState = .recapture → c'.flagState = .capturing ∧ c''.flagState = .complete)

/-- R29: between operations, an entry at or above `T` has not been written since reset, so RDSAMP of it always answers
a fresh free value. -/
def Obligations.EntriesPastTheFrameAreNeverWritten : Prop :=
  ∀ (s : State) (ch : ChanNo) (idx : BitVec 8) (c : Channel),
    s.Inv → s.Has ch c → s.cfg.samples ≤ idx.toNat → idx.toNat < s.cfg.capacity →
    ∃ t, exec (.rdsamp ch idx) s = .next t ∧ t.draws = s.draws + 1 ∧
      t.sync = .responded { status := 0, data := (Config.draw16 s.draws).setWidth 32 }

/-! ## Who writes what -/

/-- R26: `fc` is cleared only by CLRFC (or reset): by no other step, whatever the state. -/
def Obligations.OnlyClrfcOrResetClearsFrameComplete : Prop :=
  ∀ (s t : State) (k : Nat) (c c' : Channel), step s = .next t →
    s.chans[k]? = some c → t.chans[k]? = some c' → c.fc = true → c'.fc = false →
    s.nextEvent = some .reset ∨
    (s.nextEvent = some .perform ∧ ∃ w ch, s.sync = .requested w ∧ ch.toNat = k ∧
      decodeCmd s.cfg .consumer w = .ok (.clrfc ch))

/-- R20, R114: the timestamp, the buffer and the cursor of a channel are written only by an EDGE on that channel, by
the fallthrough of one (R90), or by reset. -/
def Obligations.OnlyEdgeOrResetWritesTimestampBufferCursor : Prop :=
  ∀ (s t : State) (k : Nat) (c c' : Channel), step s = .next t →
    s.chans[k]? = some c → t.chans[k]? = some c' → (c'.lastTs ≠ c.lastTs ∨ c'.buf ≠ c.buf ∨ c'.wcur ≠ c.wcur) →
    s.nextEvent = some .reset ∨
    (s.nextEvent = some .accept ∧ ∃ w ws ch ts, s.presented = w :: ws ∧
      decodeCmd s.cfg .capture w = .ok (.edge ch ts) ∧ (ch.toNat = k ∨ s.cfg.service = .fallthrough ch.toNat k))

/-- R25, R27: `ld` is set only by an EDGE on the channel, or by the fallthrough of one (R90); it is cleared only by
such an EDGE that completes a frame, by CLRLD, or by reset. `fc` is set only by such an EDGE (R26). -/
def Obligations.WhoSetsAndClearsTheFlags : Prop :=
  ∀ (s t : State) (k : Nat) (c c' : Channel), s.cfg.wf = true → step s = .next t →
    s.chans[k]? = some c → t.chans[k]? = some c' →
    let byEdge := s.nextEvent = some .accept ∧ ∃ w ws ch ts, s.presented = w :: ws ∧
      decodeCmd s.cfg .capture w = .ok (.edge ch ts) ∧ (ch.toNat = k ∨ s.cfg.service = .fallthrough ch.toNat k)
    (c.ld = false → c'.ld = true → byEdge) ∧
    (c.fc = false → c'.fc = true → byEdge ∧ c'.ld = false ∧ c'.wcur = 0) ∧
    (c.ld = true → c'.ld = false →
      s.nextEvent = some .reset ∨
      (byEdge ∧ c'.fc = true ∧ c'.wcur = 0) ∨
      (s.nextEvent = some .perform ∧ ∃ w ch, s.sync = .requested w ∧ ch.toNat = k ∧
        decodeCmd s.cfg .consumer w = .ok (.clrld ch)))

/-- R91, R115: the whole transition relation of a channel's flag state. A step that changes it is reset, an EDGE on the
channel or the fallthrough of one (R90), or one of the two clears, and goes from and to the states of the tables. -/
def Obligations.FlagStateMovesOnlyAlongTheTransitions : Prop :=
  ∀ (s t : State) (k : Nat) (c c' : Channel), s.cfg.wf = true → c.wcur.toNat < s.cfg.samples → step s = .next t →
    s.chans[k]? = some c → t.chans[k]? = some c' → c'.flagState ≠ c.flagState →
    let byEdge := s.nextEvent = some .accept ∧ ∃ w ws ch ts, s.presented = w :: ws ∧
      decodeCmd s.cfg .capture w = .ok (.edge ch ts) ∧ (ch.toNat = k ∨ s.cfg.service = .fallthrough ch.toNat k)
    let byClear := fun op : ChanNo → Instr => s.nextEvent = some .perform ∧ ∃ w ch, s.sync = .requested w ∧
      ch.toNat = k ∧ decodeCmd s.cfg .consumer w = .ok (op ch)
    let move := (c.flagState, c'.flagState)
    (s.nextEvent = some .reset ∧ c'.flagState = .idle) ∨
    (byEdge ∧ move ∈ [(.idle, .capturing), (.capturing, .complete), (.complete, .recapture), (.recapture, .complete)]) ∨
    (byClear .clrfc ∧ move ∈ [(.complete, .idle), (.recapture, .capturing)]) ∨
    (byClear .clrld ∧ move ∈ [(.capturing, .idle), (.recapture, .complete)])

/-- R114: no consumer operation writes a buffer, a cursor or a timestamp, and none reads a cursor or a timestamp: with
every cursor and timestamp replaced, it does and answers the same. -/
def Obligations.ConsumerNeverTouchesTimestampOrCursor : Prop :=
  ∀ (s t : State) (i : Instr) (x : Tick) (y : Cursor), i.port = .consumer → exec i s = .next t →
    (∀ (k : Nat) (c' : Channel), t.chans[k]? = some c' →
      ∃ c, s.chans[k]? = some c ∧ c'.buf = c.buf ∧ c'.wcur = c.wcur ∧ c'.lastTs = c.lastTs) ∧
    exec i { s with chans := s.chans.map fun c => { c with lastTs := x, wcur := y } } =
      .next { t with chans := t.chans.map fun c => { c with lastTs := x, wcur := y } }

/-- R17: an operation neither reads nor writes another channel, but for the fallthrough of an EDGE: with the record of
another channel replaced, it does and answers the same, and the replaced record stands. -/
def Obligations.ChannelsAreIndependent : Prop :=
  ∀ (s t : State) (i : Instr) (k : Nat) (c : Channel), i.chan.toNat ≠ k →
    (i.port = .consumer ∨ notSource s.cfg i.chan.toNat = true) → exec i s = .next t →
    exec i { s with chans := s.chans.set k c } = .next { t with chans := t.chans.set k c }

/-- R14, R23, R90, R169: free values are fresh. No step, reset included, gives one back, and each use takes the next
ones and uses them up: a fallthrough one, which is then the second channel's timestamp; an RDSAMP of an unwritten entry
one, which it answers; a DECODE one for each unwritten space, each bit its own (the counter of free values and the
order of a DECODE's are the model's, log 5; `NBITS`: log 3). An RDSAMP or a DECODE of written entries uses none. -/
def Obligations.FreeValuesAreNeverReused : Prop :=
  (∀ s t : State, step s = .next t → s.draws ≤ t.draws) ∧
  (∀ (s : State) (a b : ChanNo) (ts : Tick), s.cfg.service = .fallthrough a.toNat b.toNat →
    a.toNat < s.cfg.channels → b.toNat < s.chans.length →
    ∃ t cb, exec (.edge a ts) s = .next t ∧ t.draws = s.draws + 1 ∧ t.chans[b.toNat]? = some cb ∧
      cb.lastTs = Config.draw16 s.draws) ∧
  (∀ (s : State) (ch : ChanNo) (c : Channel) (idx : BitVec 8), s.Has ch c → idx.toNat < s.cfg.capacity →
    ∃ t, exec (.rdsamp ch idx) s = .next t ∧
      (c.buf.read idx.toNat ≠ none → t.draws = s.draws) ∧
      (c.buf.read idx.toNat = none → t.draws = s.draws + 1 ∧
        t.sync = .responded { status := 0, data := (Config.draw16 s.draws).setWidth 32 })) ∧
  (∀ (s : State) (ch : ChanNo) (c : Channel), s.Has ch c →
    let unwritten := fun b : Nat => (List.range b).countP fun k => (c.buf.read (3 + 2 * k)).isNone
    ∃ t v, exec (.decode ch) s = .next t ∧ t.draws = s.draws + unwritten s.cfg.nbits ∧
      t.sync = .responded { status := 0, data := v } ∧
      ∀ b, b < 32 → b < s.cfg.nbits → c.buf.read (3 + 2 * b) = none →
        v.getLsbD b = decide (s.cfg.bitTh ≤ (Config.draw16 (s.draws + unwritten b)).toNat))

/-! ## Sequences of operations -/

/-- R45 (a): a flag that was cleared reads 0 until an edge step on its channel. -/
def Obligations.ClearedFlagReadsZero : Prop :=
  ∀ (s : State) (ch : ChanNo) (c : Channel) (is : List Instr),
    s.Has ch c → notTarget s.cfg ch.toNat = true → stampsOn ch is = [] →
    (∃ t, runInstrs (.clrfc ch :: is ++ [.rdfc ch]) s = .next t ∧
      t.sync = .responded { status := 0, data := 0 }) ∧
    (∃ t, runInstrs (.clrld ch :: is ++ [.rdld ch]) s = .next t ∧
      t.sync = .responded { status := 0, data := 0 })

/-- R57: under `SIGNALED_ONLY`, two EDGEs on different channels leave the same state in either order. -/
def Obligations.EdgesOnDifferentChannelsCommute : Prop :=
  ∀ (s : State) (ch k : ChanNo) (ts us : Tick), s.cfg.service = .signaledOnly → ch ≠ k →
    ch.toNat < s.cfg.channels → k.toNat < s.cfg.channels →
    ∃ t, runInstrs [.edge ch ts, .edge k us] s = .next t ∧ runInstrs [.edge k us, .edge ch ts] s = .next t

/-- R107: any value `V` of `NBITS` bits (32 by R7's default; log 3), any channel, any state: `T` edge steps whose
deltas are a leader, then no leader, and whose spaces spell `V`, interleaved with any operations but CLRLD on the
channel, complete the frame at the last of them; a DECODE with no edge step on the channel after that answers exactly
`V`. -/
def Obligations.FrameDecodesToTheValueItSpells : Prop :=
  ∀ (s : State) (c : Channel) (ch : ChanNo) (is : List Instr) (ts : Tick) (V : Word),
    s.cfg.wf = true → s.Has ch c → notTarget s.cfg ch.toNat = true → .clrld ch ∉ is →
    let ds := deltasOn s.cfg ch c.lastTs (is ++ [.edge ch ts])
    ds.length = s.cfg.samples → oneCapture s.cfg ds = true → DecodesDeltas s.cfg ds V →
    ∃ t c', runInstrs (is ++ [.edge ch ts]) s = .next t ∧ t.Has ch c' ∧
      c'.fc = true ∧ c'.ld = false ∧ c'.wcur = 0 ∧
      ∀ js, stampsOn ch js = [] → ∃ u, runInstrs (js ++ [.decode ch]) t = .next u ∧
        u.sync = .responded { status := 0, data := V }

/-- R33 (I-c), R85, R86, R93: a leader-shaped delta, in any state of the channel, starts a capture; while fewer than
`T` samples follow, they are held in order from index 0, the cursor counts them, `fc` keeps its value, and the entries
further on keep what they held. -/
def Obligations.LeaderRestartsTheCapture : Prop :=
  ∀ (s : State) (c : Channel) (ch : ChanNo) (is : List Instr),
    s.cfg.wf = true → s.Has ch c → notTarget s.cfg ch.toNat = true → .clrld ch ∉ is → .clrfc ch ∉ is →
    let ds := deltasOn s.cfg ch c.lastTs is
    oneCapture s.cfg ds = true → ds.length < s.cfg.samples →
    ∃ t c', runInstrs is s = .next t ∧ t.Has ch c' ∧
      c'.ld = true ∧ c'.fc = c.fc ∧ c'.wcur.toNat = ds.length ∧
      (∀ i, i < ds.length → c'.buf.read i = ds[i]?) ∧
      (∀ i, ds.length ≤ i → c'.buf.read i = c.buf.read i)

/-- R95, R168: a capture that receives too few samples never completes, whatever the consumer does and however long it
lasts: there is no timeout. With `ld` clear the cursor's value means nothing (R70), and it does not count. -/
def Obligations.TooFewSamplesNeverComplete : Prop :=
  ∀ (s : State) (c : Channel) (ch : ChanNo) (is : List Instr),
    s.cfg.wf = true → s.Has ch c → notTarget s.cfg ch.toNat = true → c.fc = false →
    c.wcur.toNat < s.cfg.samples → c.captured + (stampsOn ch is).length < s.cfg.samples →
    ∃ t c', runInstrs is s = .next t ∧ t.Has ch c' ∧ c'.fc = false

/-- R96: an oversized trace completes at its `T`-th sample; the deltas that follow are measured and not stored, and
nothing is written past index `T - 1`. -/
def Obligations.OversizedTraceCompletesAtItsLastSample : Prop :=
  ∀ (s : State) (c : Channel) (ch : ChanNo) (is : List Instr),
    s.cfg.wf = true → s.Has ch c → notTarget s.cfg ch.toNat = true → .clrld ch ∉ is → .clrfc ch ∉ is →
    let ds := deltasOn s.cfg ch c.lastTs is
    oneCapture s.cfg ds = true → s.cfg.samples ≤ ds.length →
    ∃ t c', runInstrs is s = .next t ∧ t.Has ch c' ∧ c'.fc = true ∧ c'.ld = false ∧ c'.wcur = 0 ∧
      (stampsOn ch is).getLast? = some c'.lastTs ∧
      (∀ i, i < s.cfg.samples → c'.buf.read i = ds[i]?) ∧
      (∀ i, s.cfg.samples ≤ i → c'.buf.read i = c.buf.read i)

/-- R160: what `fc` promises. After a completion, and for as long as no leader-shaped delta arrives, the buffer holds
the `T` deltas of the completed capture, in order, whatever else happens. -/
def Obligations.CompletedFrameStaysUntilTheNextLeader : Prop :=
  ∀ (s : State) (c : Channel) (ch : ChanNo) (is js : List Instr) (ts : Tick),
    s.cfg.wf = true → s.Has ch c → notTarget s.cfg ch.toNat = true → .clrld ch ∉ is →
    let ds := deltasOn s.cfg ch c.lastTs (is ++ [.edge ch ts])
    ds.length = s.cfg.samples → oneCapture s.cfg ds = true → noLeader s.cfg (deltasOn s.cfg ch ts js) = true →
    ∃ t c', runInstrs (is ++ [.edge ch ts] ++ js) s = .next t ∧ t.Has ch c' ∧
      (∀ i, i < s.cfg.samples → c'.buf.read i = ds[i]?) ∧ (.clrfc ch ∉ js → c'.fc = true)

/-- R162, hazard H1: a leader after a completion and before the DECODE. With `k` samples of the new capture stored,
DECODE answers the new capture's spaces in bits 0 to `(k - 4) / 2` and the old frame's in the others (of the `NBITS`
bits, log 3), and `fc` still reads 1. -/
def Obligations.LeaderBeforeDecodeMixesTwoFrames : Prop :=
  ∀ (s : State) (c : Channel) (ch : ChanNo) (is : List Instr),
    s.cfg.wf = true → s.Has ch c → notTarget s.cfg ch.toNat = true → .clrld ch ∉ is → .clrfc ch ∉ is →
    c.fc = true → (∀ i, i < s.cfg.samples → (c.buf.read i).isSome = true) →
    let ds := deltasOn s.cfg ch c.lastTs is
    oneCapture s.cfg ds = true → 4 ≤ ds.length → ds.length < s.cfg.samples →
    ∃ t c' u v, runInstrs is s = .next t ∧ t.Has ch c' ∧ c'.flagState = .recapture ∧
      exec (.decode ch) t = .next u ∧ u.sync = .responded { status := 0, data := v } ∧
      ∀ b, b < s.cfg.nbits →
        (b ≤ (ds.length - 4) / 2 → ∃ d, ds[3 + 2 * b]? = some d ∧ v.getLsbD b = decide (s.cfg.bitTh ≤ d.toNat)) ∧
        ((ds.length - 4) / 2 < b →
          ∃ d, c.buf.read (3 + 2 * b) = some d ∧ v.getLsbD b = decide (s.cfg.bitTh ≤ d.toNat))

/-- R163, hazard H2: a second frame that completes inside a dispatch. Completed between DECODE and CLRFC, it is never
delivered: the old value is forwarded and the flag is cleared. Completed between RDFC and DECODE, it is delivered in
the place of the first. -/
def Obligations.CompletionInsideADispatchIsLost : Prop :=
  ∀ (s : State) (c : Channel) (ch : ChanNo) (gap : List Instr),
    s.cfg.wf = true → s.Has ch c → notTarget s.cfg ch.toNat = true → onlyEdges gap = true →
    c.fc = true → (∀ i, i < s.cfg.samples → (c.buf.read i).isSome = true) →
    let ds := deltasOn s.cfg ch c.lastTs gap
    oneCapture s.cfg ds = true → ds.length = s.cfg.samples →
    ∃ t v c' t' v' c'',
      dispatchWith ch [] gap [] s = .next (t, some v) ∧ t.Has ch c' ∧ c'.flagState = .idle ∧
      DecodesBuffer s.cfg c.buf v ∧ (∀ i, i < s.cfg.samples → c'.buf.read i = ds[i]?) ∧
      dispatchWith ch gap [] [] s = .next (t', some v') ∧ t'.Has ch c'' ∧ c''.flagState = .idle ∧
      DecodesDeltas s.cfg ds v'

/-- R164, hazard H3, from COMPLETE with any cursor below `T`: a leader that arrives inside a dispatch starts a capture,
which the dispatch's CLRLD ends: the same edges alone leave `ld` set, and the dispatch leaves it clear. The rest of
that frame is then not stored and never completes. -/
def Obligations.DispatchAbortsACaptureThatBeganInsideIt : Prop :=
  ∀ (s : State) (c : Channel) (ch : ChanNo) (gap1 gap2 gap3 js : List Instr),
    s.cfg.wf = true → s.Has ch c → notTarget s.cfg ch.toNat = true →
    onlyEdges (gap1 ++ gap2 ++ gap3) = true → onlyEdges js = true →
    c.fc = true → c.ld = false → c.wcur.toNat < s.cfg.samples →
    (deltasOn s.cfg ch c.lastTs (gap1 ++ gap2 ++ gap3)).any (leaderShaped s.cfg) = true →
    (stampsOn ch (gap1 ++ gap2 ++ gap3)).length < s.cfg.samples →
    ∃ u0 c0 t v c', runInstrs (gap1 ++ gap2 ++ gap3) s = .next u0 ∧ u0.Has ch c0 ∧ c0.ld = true ∧
      dispatchWith ch gap1 gap2 gap3 s = .next (t, some v) ∧ t.Has ch c' ∧ c'.flagState = .idle ∧
      (noLeader s.cfg (deltasOn s.cfg ch c'.lastTs js) = true →
        ∃ u c'', runInstrs js t = .next u ∧ u.Has ch c'' ∧ c''.buf = c'.buf ∧ c''.flagState = .idle)

/-- R119: a DISPATCH on a channel in COMPLETE, with no leader-shaped delta on it in its gaps, forwards the decode of
the frame and leaves the channel in IDLE; with `fc` clear it only reads, and changes no channel. (DISPATCH is a
definition outside the instruction set, log 17.) -/
def Obligations.UndisturbedDispatchForwardsTheFrame : Prop :=
  ∀ (s : State) (c : Channel) (ch : ChanNo) (gap1 gap2 gap3 : List Instr),
    s.cfg.wf = true → s.Has ch c → notTarget s.cfg ch.toNat = true → onlyEdges (gap1 ++ gap2 ++ gap3) = true →
    (c.flagState = .complete → c.wcur.toNat < s.cfg.samples →
      noLeader s.cfg (deltasOn s.cfg ch c.lastTs (gap1 ++ gap2 ++ gap3)) = true →
      ∃ t v c', dispatchWith ch gap1 gap2 gap3 s = .next (t, some v) ∧ t.Has ch c' ∧ c'.flagState = .idle ∧
        c'.buf = c.buf ∧ c'.wcur = c.wcur ∧ DecodesBuffer s.cfg c.buf v) ∧
    (c.fc = false → dispatchWith ch gap1 gap2 gap3 s =
      .next ({ s with sync := .responded { status := 0, data := 0 } }, none))
end

