-- ==== Sys2Proof/Laws/Config.lean ====
section
/-! SUPPORT. The constraints of R8 and R9, one by one. -/

namespace Sys2Proof.Config

theorem wf_iff (c : Config) : c.wf = true ↔
    c.leaderLo < c.leaderHi ∧ c.leaderHi ≤ 65536 ∧ 2 ≤ c.samples ∧ c.samples ≤ c.capacity ∧
    2 * c.nbits + 1 < c.samples ∧ c.capacity ≤ 127 ∧ 1 ≤ c.channels ∧ c.channels ≤ 16 ∧ c.serviceOk = true ∧
    0 < c.tickHz ∧ c.tsW ≤ 16 ∧ c.nbits ≤ 32 := by
  simp [wf, and_assoc]

theorem two_le_samples {c : Config} (h : c.wf = true) : 2 ≤ c.samples := ((wf_iff c).1 h).2.2.1

theorem lastSpace_lt_samples {c : Config} (h : c.wf = true) : 2 * c.nbits + 1 < c.samples := ((wf_iff c).1 h).2.2.2.2.1

theorem tsW_le {c : Config} (h : c.wf = true) : c.tsW ≤ 16 := ((wf_iff c).1 h).2.2.2.2.2.2.2.2.2.2.1

theorem nbits_le {c : Config} (h : c.wf = true) : c.nbits ≤ 32 := ((wf_iff c).1 h).2.2.2.2.2.2.2.2.2.2.2

theorem samples_le_capacity {c : Config} (h : c.wf = true) : c.samples ≤ c.capacity := ((wf_iff c).1 h).2.2.2.1

theorem capacity_le {c : Config} (h : c.wf = true) : c.capacity ≤ 127 := ((wf_iff c).1 h).2.2.2.2.2.1

theorem channels_le {c : Config} (h : c.wf = true) : c.channels ≤ 16 := ((wf_iff c).1 h).2.2.2.2.2.2.2.1

/-- The document's constants meet the constraints (R8). -/
theorem default_wf : ({} : Config).wf = true := by decide

end Sys2Proof.Config
end

