-- ==== Sys2Proof/Laws/Decode.lean ====
section
/-! SUPPORT. The fields of a word built from fields, and the decoder's checks one by one (R60 to R66). -/

namespace Sys2Proof

/-- Bit `k` of a word built from its fields (R60). -/
theorem getLsbD_fieldsWord (o : BitVec 4) (c : ChanNo) (i : BitVec 8) (t : Tick) (k : Nat) :
    (fieldsWord o c i t).getLsbD k =
      if k < 16 then t.getLsbD k else if k < 24 then i.getLsbD (k - 16)
      else if k < 28 then c.getLsbD (k - 24) else o.getLsbD (k - 28) := by
  show @BitVec.getLsbD (4 + 4 + (8 + 16)) _ k = _
  simp only [fieldsWord, BitVec.getLsbD_append]
  grind

@[simp] theorem opField_fieldsWord (o : BitVec 4) (c : ChanNo) (i : BitVec 8) (t : Tick) :
    opField (fieldsWord o c i t) = o := by
  apply BitVec.eq_of_getLsbD_eq
  intro k hk
  simp only [opField, BitVec.getLsbD_extractLsb', getLsbD_fieldsWord]
  grind

@[simp] theorem chField_fieldsWord (o : BitVec 4) (c : ChanNo) (i : BitVec 8) (t : Tick) :
    chField (fieldsWord o c i t) = c := by
  apply BitVec.eq_of_getLsbD_eq
  intro k hk
  simp only [chField, BitVec.getLsbD_extractLsb', getLsbD_fieldsWord]
  grind

@[simp] theorem idxField_fieldsWord (o : BitVec 4) (c : ChanNo) (i : BitVec 8) (t : Tick) :
    idxField (fieldsWord o c i t) = i := by
  apply BitVec.eq_of_getLsbD_eq
  intro k hk
  simp only [idxField, BitVec.getLsbD_extractLsb', getLsbD_fieldsWord]
  grind

@[simp] theorem tsField_fieldsWord (o : BitVec 4) (c : ChanNo) (i : BitVec 8) (t : Tick) :
    tsField (fieldsWord o c i t) = t := by
  apply BitVec.eq_of_getLsbD_eq
  intro k hk
  simp only [tsField, BitVec.getLsbD_extractLsb', getLsbD_fieldsWord]
  grind

/-- A word is its four fields. -/
theorem fieldsWord_fields (w : Word) : fieldsWord (opField w) (chField w) (idxField w) (tsField w) = w := by
  apply BitVec.eq_of_getLsbD_eq
  intro k hk
  simp only [getLsbD_fieldsWord, opField, chField, idxField, tsField, BitVec.getLsbD_extractLsb']
  grind

theorem opcodeOf_code (o : Opcode) : opcodeOf o.code = some o := by cases o <;> rfl

theorem opcodeOf_eq_some {x : BitVec 4} {o : Opcode} : opcodeOf x = some o ↔ x = o.code := by
  constructor
  · intro h
    have hall : ∀ x : BitVec 4, ∀ o : Opcode, opcodeOf x = some o → x = o.code := by
      intro x; revert x; intro x o; cases o <;> revert x <;> decide
    exact hall x o h
  · rintro rfl; exact opcodeOf_code o

/-- The reserved codes (R61). -/
theorem opcodeOf_eq_none {x : BitVec 4} : opcodeOf x = none ↔ x.toNat = 0 ∨ 8 ≤ x.toNat := by
  revert x; decide

/-- What `rangeReject` answers (R64). -/
theorem rangeReject_cases (c : Config) (i : Instr) :
    (c.channels ≤ i.chan.toNat ∧ rangeReject c i = some .channelRange) ∨
    (i.chan.toNat < c.channels ∧ indexInRange c i = false ∧ rangeReject c i = some .indexRange) ∨
    (i.chan.toNat < c.channels ∧ indexInRange c i = true ∧ rangeReject c i = none) := by
  unfold rangeReject
  by_cases h : c.channels ≤ i.chan.toNat
  · simp [h]
  · cases hi : indexInRange c i <;> simp [h] <;> omega

/-- The range checks pass exactly on the well-formed commands (R64). -/
theorem rangeReject_none_iff {c : Config} {i : Instr} : rangeReject c i = none ↔ i.wellFormed c = true := by
  have hidx : indexInRange c i = i.indexOk c := by cases i <;> rfl
  rcases rangeReject_cases c i with ⟨h, e⟩ | ⟨h, h', e⟩ | ⟨h, h', e⟩ <;>
    simp_all [Instr.wellFormed, Instr.channelOk]

theorem rangeReject_none_of {c : Config} {i : Instr} (h : i.chan.toNat < c.channels)
    (hi : indexInRange c i = true) : rangeReject c i = none := by
  rcases rangeReject_cases c i with ⟨h0, _⟩ | ⟨_, h1, _⟩ | ⟨_, _, e⟩
  · omega
  · simp [hi] at h1
  · exact e

end Sys2Proof
end

