-- ==== Sys2Proof/Laws/Memory.lean ====
section
/-! SUPPORT. The buffer: a read after a write, and the canonical form (R13, R23). -/

namespace Sys2Proof.Machine

@[simp] theorem Memory.read_nil (i : Nat) : Memory.read [] i = none := rfl

/-- A read after a write to the same index gives the value written. -/
@[simp] theorem Memory.read_write_same (m : Memory) (i : Nat) (v : Tick) : (m.write i v).read i = some v := by
  induction m with
  | nil => simp [Memory.write, Memory.read]
  | cons e rest ih =>
    obtain ⟨j, u⟩ := e
    rcases Nat.lt_trichotomy i j with h | h | h
    · simp [Memory.write, Memory.read, h]
    · simp [Memory.write, Memory.read, h]
    · have h1 : ¬ i < j := by omega
      have h2 : i ≠ j := by omega
      simp [Memory.write, Memory.read, h1, h2, ih]

/-- A write leaves every other index alone. -/
theorem Memory.read_write_other {m : Memory} {i k : Nat} {v : Tick} (h : k ≠ i) :
    (m.write i v).read k = m.read k := by
  induction m with
  | nil => simp [Memory.write, Memory.read, h]
  | cons e rest ih =>
    obtain ⟨j, u⟩ := e
    rcases Nat.lt_trichotomy i j with h0 | h0 | h0
    · simp [Memory.write, Memory.read, h0, h]
    · subst h0
      simp [Memory.write, Memory.read, h]
    · have h1 : ¬ i < j := by omega
      have h2 : i ≠ j := by omega
      simp [Memory.write, Memory.read, h1, h2, ih]

/-- A read after a write, at any index. -/
theorem Memory.read_write (m : Memory) (i k : Nat) (v : Tick) :
    (m.write i v).read k = if k = i then some v else m.read k := by
  split
  · next h => rw [h, Memory.read_write_same]
  · next h => exact Memory.read_write_other h

/-- A write unlists nothing: an entry once written stays written. -/
theorem Memory.isSome_read_write {m : Memory} {i k : Nat} {v : Tick} (h : (m.read k).isSome = true) :
    ((m.write i v).read k).isSome = true := by
  rw [Memory.read_write]; split <;> simp [h]

/-- Every entry of a written buffer is the new one or an old one. -/
theorem Memory.all_write {m : Memory} {i : Nat} {v : Tick} {p : Nat × Tick → Bool} (hm : m.all p = true)
    (hp : p (i, v) = true) : (m.write i v).all p = true := by
  induction m with
  | nil => simp [Memory.write, hp]
  | cons e rest ih =>
    obtain ⟨j, u⟩ := e
    simp only [List.all_cons, Bool.and_eq_true] at hm
    unfold Memory.write
    split
    · simp [hp, hm]
    · split
      · simp [hp, hm]
      · simp [hm, ih hm.2]

theorem Memory.below_write {m : Memory} {i n : Nat} {v : Tick} (hm : m.below n = true) (hi : i < n) :
    (m.write i v).below n = true :=
  Memory.all_write hm (by simpa using hi)

theorem Memory.above_write {m : Memory} {i j : Nat} {v : Tick} (hm : Memory.above j m = true) (hi : j < i) :
    Memory.above j (m.write i v) = true :=
  Memory.all_write hm (by simpa using hi)

theorem Memory.above_trans {m : Memory} {i j : Nat} (hm : Memory.above j m = true) (hi : i ≤ j) :
    Memory.above i m = true := by
  simp only [Memory.above, List.all_eq_true, decide_eq_true_eq] at hm ⊢
  intro e he
  have := hm e he
  omega

/-- A write keeps the canonical form. -/
theorem Memory.wf_write {m : Memory} {i : Nat} {v : Tick} (hm : m.wf = true) : (m.write i v).wf = true := by
  induction m with
  | nil => simp [Memory.write, Memory.wf, Memory.above]
  | cons e rest ih =>
    obtain ⟨j, u⟩ := e
    simp only [Memory.wf, Bool.and_eq_true] at hm
    rcases Nat.lt_trichotomy i j with h | h | h
    · have ha : Memory.above i ((j, u) :: rest) = true := by
        have := Memory.above_trans hm.1 (Nat.le_of_lt h)
        simp only [Memory.above, List.all_cons, Bool.and_eq_true, decide_eq_true_eq] at this ⊢
        exact ⟨h, this⟩
      simp [Memory.write, h, Memory.wf, hm, ha]
    · subst h
      simp [Memory.write, Memory.wf, hm]
    · have h1 : ¬ i < j := by omega
      have h2 : i ≠ j := by omega
      simp [Memory.write, Memory.wf, h1, h2, ih hm.2, Memory.above_write hm.1 h]

/-- An entry that reads as written lies below every bound on the listed indices. -/
theorem Memory.lt_of_read {m : Memory} {i n : Nat} {v : Tick} (hm : m.below n = true) (h : m.read i = some v) :
    i < n := by
  induction m with
  | nil => simp at h
  | cons e rest ih =>
    obtain ⟨j, u⟩ := e
    simp only [Memory.below, List.all_cons, Bool.and_eq_true, decide_eq_true_eq] at hm
    unfold Memory.read at h
    split at h
    · omega
    · exact ih hm.2 h

/-- An index at or above a bound on the listed indices reads as not written (R29). -/
theorem Memory.read_of_below {m : Memory} {i n : Nat} (hm : m.below n = true) (h : n ≤ i) : m.read i = none := by
  cases hr : m.read i with
  | none => rfl
  | some v =>
    have := Memory.lt_of_read hm hr
    omega

theorem Memory.ne_of_above {m : Memory} {j k : Nat} (h : Memory.above j m = true) (hk : k ≤ j) : m.read k = none := by
  induction m with
  | nil => rfl
  | cons e rest ih =>
    obtain ⟨i, u⟩ := e
    simp only [Memory.above, List.all_cons, Bool.and_eq_true, decide_eq_true_eq] at h
    have : k ≠ i := by omega
    simp only [Memory.read, this, if_false]
    exact ih h.2

/-- Two buffers in canonical form that read alike are the same list: equal buffers are equal data. -/
theorem Memory.ext_of_read {m m' : Memory} (hm : m.wf = true) (hm' : m'.wf = true)
    (h : ∀ i, m.read i = m'.read i) : m = m' := by
  induction m generalizing m' with
  | nil =>
    cases m' with
    | nil => rfl
    | cons e rest =>
      have := h e.1
      simp [Memory.read] at this
  | cons e rest ih =>
    obtain ⟨j, u⟩ := e
    cases m' with
    | nil =>
      have := h j
      simp [Memory.read] at this
    | cons e' rest' =>
      obtain ⟨j', u'⟩ := e'
      simp only [Memory.wf, Bool.and_eq_true] at hm hm'
      have hj : j = j' := by
        rcases Nat.lt_trichotomy j j' with hlt | heq | hgt
        · have h1 := h j
          have hne : j ≠ j' := by omega
          simp [Memory.read, hne, Memory.ne_of_above hm'.1 (Nat.le_of_lt hlt)] at h1
        · exact heq
        · have h1 := h j'
          have hne : j' ≠ j := by omega
          simp [Memory.read, hne, Memory.ne_of_above hm.1 (Nat.le_of_lt hgt)] at h1
      subst hj
      have hu : u = u' := by
        have h1 := h j
        simpa [Memory.read] using h1
      subst hu
      rw [ih hm.2 hm'.2]
      intro i
      by_cases hi : i = j
      · subst hi
        rw [Memory.ne_of_above hm.1 (Nat.le_refl _), Memory.ne_of_above hm'.1 (Nat.le_refl _)]
      · have h1 := h i
        simpa [Memory.read, hi] using h1

end Sys2Proof.Machine
end

