-- ==== Sys2Proof/Laws/State.lean ====
section
/-! SUPPORT. One lemma per field per update of State, and the channel accessor, so that no later proof unfolds a
record update. -/

namespace Sys2Proof.Machine

/-! ## setChan -/

@[simp] theorem State.setChan_cfg (s : State) (ch : Nat) (c : Channel) : (s.setChan ch c).cfg = s.cfg := rfl

@[simp] theorem State.setChan_chans (s : State) (ch : Nat) (c : Channel) : (s.setChan ch c).chans = s.chans.set ch c := rfl

@[simp] theorem State.setChan_sync (s : State) (ch : Nat) (c : Channel) : (s.setChan ch c).sync = s.sync := rfl

@[simp] theorem State.setChan_schedule (s : State) (ch : Nat) (c : Channel) : (s.setChan ch c).schedule = s.schedule := rfl

@[simp] theorem State.setChan_presented (s : State) (ch : Nat) (c : Channel) : (s.setChan ch c).presented = s.presented := rfl

@[simp] theorem State.setChan_output (s : State) (ch : Nat) (c : Channel) : (s.setChan ch c).output = s.output := rfl

@[simp] theorem State.setChan_draws (s : State) (ch : Nat) (c : Channel) : (s.setChan ch c).draws = s.draws := rfl

/-! ## draw16 -/

@[simp] theorem State.draw16_value (s : State) : s.draw16.1 = Config.draw16 s.draws := rfl

@[simp] theorem State.draw16_cfg (s : State) : s.draw16.2.cfg = s.cfg := rfl

@[simp] theorem State.draw16_chans (s : State) : s.draw16.2.chans = s.chans := rfl

@[simp] theorem State.draw16_sync (s : State) : s.draw16.2.sync = s.sync := rfl

@[simp] theorem State.draw16_schedule (s : State) : s.draw16.2.schedule = s.schedule := rfl

@[simp] theorem State.draw16_presented (s : State) : s.draw16.2.presented = s.presented := rfl

@[simp] theorem State.draw16_output (s : State) : s.draw16.2.output = s.output := rfl

@[simp] theorem State.draw16_draws (s : State) : s.draw16.2.draws = s.draws + 1 := rfl

/-! ## answer, respond and reject -/

@[simp] theorem State.answer_cfg (s : State) (p : Port) (r : Response) : (s.answer p r).cfg = s.cfg := by cases p <;> rfl

@[simp] theorem State.answer_chans (s : State) (p : Port) (r : Response) : (s.answer p r).chans = s.chans := by cases p <;> rfl

@[simp] theorem State.answer_schedule (s : State) (p : Port) (r : Response) : (s.answer p r).schedule = s.schedule := by cases p <;> rfl

@[simp] theorem State.answer_presented (s : State) (p : Port) (r : Response) : (s.answer p r).presented = s.presented := by cases p <;> rfl

@[simp] theorem State.answer_draws (s : State) (p : Port) (r : Response) : (s.answer p r).draws = s.draws := by cases p <;> rfl

@[simp] theorem State.answer_capture_sync (s : State) (r : Response) : (s.answer .capture r).sync = s.sync := rfl

@[simp] theorem State.answer_capture_output (s : State) (r : Response) : (s.answer .capture r).output = some (Delivery.mk .capture r) := rfl

@[simp] theorem State.answer_consumer_sync (s : State) (r : Response) : (s.answer .consumer r).sync = .responded r := rfl

@[simp] theorem State.answer_consumer_output (s : State) (r : Response) : (s.answer .consumer r).output = s.output := rfl

@[simp] theorem State.respond_cfg (s : State) (p : Port) (v : Word) : (s.respond p v).cfg = s.cfg := by cases p <;> rfl

@[simp] theorem State.respond_chans (s : State) (p : Port) (v : Word) : (s.respond p v).chans = s.chans := by cases p <;> rfl

@[simp] theorem State.respond_schedule (s : State) (p : Port) (v : Word) : (s.respond p v).schedule = s.schedule := by cases p <;> rfl

@[simp] theorem State.respond_presented (s : State) (p : Port) (v : Word) : (s.respond p v).presented = s.presented := by cases p <;> rfl

@[simp] theorem State.respond_draws (s : State) (p : Port) (v : Word) : (s.respond p v).draws = s.draws := by cases p <;> rfl

@[simp] theorem State.respond_capture_sync (s : State) (v : Word) : (s.respond .capture v).sync = s.sync := rfl

@[simp] theorem State.respond_capture_output (s : State) (v : Word) : (s.respond .capture v).output = some (Delivery.mk .capture { status := 0, data := v }) := rfl

@[simp] theorem State.respond_consumer_sync (s : State) (v : Word) : (s.respond .consumer v).sync = .responded { status := 0, data := v } := rfl

@[simp] theorem State.respond_consumer_output (s : State) (v : Word) : (s.respond .consumer v).output = s.output := rfl

@[simp] theorem State.reject_cfg (s : State) (p : Port) (code : RejectCode) : (s.reject p code).cfg = s.cfg := by cases p <;> rfl

@[simp] theorem State.reject_chans (s : State) (p : Port) (code : RejectCode) : (s.reject p code).chans = s.chans := by cases p <;> rfl

@[simp] theorem State.reject_schedule (s : State) (p : Port) (code : RejectCode) : (s.reject p code).schedule = s.schedule := by cases p <;> rfl

@[simp] theorem State.reject_presented (s : State) (p : Port) (code : RejectCode) : (s.reject p code).presented = s.presented := by cases p <;> rfl

@[simp] theorem State.reject_draws (s : State) (p : Port) (code : RejectCode) : (s.reject p code).draws = s.draws := by cases p <;> rfl

@[simp] theorem State.reject_capture_sync (s : State) (code : RejectCode) : (s.reject .capture code).sync = s.sync := rfl

@[simp] theorem State.reject_capture_output (s : State) (code : RejectCode) : (s.reject .capture code).output = some (Delivery.mk .capture { status := code.status, data := 0 }) := rfl

@[simp] theorem State.reject_consumer_sync (s : State) (code : RejectCode) : (s.reject .consumer code).sync = .responded { status := code.status, data := 0 } := rfl

@[simp] theorem State.reject_consumer_output (s : State) (code : RejectCode) : (s.reject .consumer code).output = s.output := rfl

/-! ## edgeStepOn -/

@[simp] theorem State.edgeStepOn_cfg (s : State) (ch : Nat) (ts : Tick) : (s.edgeStepOn ch ts).cfg = s.cfg := rfl

@[simp] theorem State.edgeStepOn_chans (s : State) (ch : Nat) (ts : Tick) : (s.edgeStepOn ch ts).chans = s.chans.set ch (edgeStep s.cfg ts (s.chan ch)) := rfl

@[simp] theorem State.edgeStepOn_sync (s : State) (ch : Nat) (ts : Tick) : (s.edgeStepOn ch ts).sync = s.sync := rfl

@[simp] theorem State.edgeStepOn_schedule (s : State) (ch : Nat) (ts : Tick) : (s.edgeStepOn ch ts).schedule = s.schedule := rfl

@[simp] theorem State.edgeStepOn_presented (s : State) (ch : Nat) (ts : Tick) : (s.edgeStepOn ch ts).presented = s.presented := rfl

@[simp] theorem State.edgeStepOn_output (s : State) (ch : Nat) (ts : Tick) : (s.edgeStepOn ch ts).output = s.output := rfl

@[simp] theorem State.edgeStepOn_draws (s : State) (ch : Nat) (ts : Tick) : (s.edgeStepOn ch ts).draws = s.draws := rfl

/-! ## advance -/

@[simp] theorem State.advance_cfg (s : State) : s.advance.cfg = s.cfg := rfl

@[simp] theorem State.advance_chans (s : State) : s.advance.chans = s.chans := rfl

@[simp] theorem State.advance_sync (s : State) : s.advance.sync = s.sync := rfl

@[simp] theorem State.advance_schedule (s : State) : s.advance.schedule = s.schedule.tail := rfl

@[simp] theorem State.advance_presented (s : State) : s.advance.presented = s.presented := rfl

@[simp] theorem State.advance_output (s : State) : s.advance.output = none := rfl

@[simp] theorem State.advance_draws (s : State) : s.advance.draws = s.draws := rfl

/-! ## presentWord -/

@[simp] theorem State.presentWord_cfg (s : State) (w : Word) : (s.presentWord w).cfg = s.cfg := rfl

@[simp] theorem State.presentWord_chans (s : State) (w : Word) : (s.presentWord w).chans = s.chans := rfl

@[simp] theorem State.presentWord_sync (s : State) (w : Word) : (s.presentWord w).sync = s.sync := rfl

@[simp] theorem State.presentWord_schedule (s : State) (w : Word) : (s.presentWord w).schedule = s.schedule := rfl

@[simp] theorem State.presentWord_presented (s : State) (w : Word) : (s.presentWord w).presented = s.presented ++ [w] := rfl

@[simp] theorem State.presentWord_output (s : State) (w : Word) : (s.presentWord w).output = s.output := rfl

@[simp] theorem State.presentWord_draws (s : State) (w : Word) : (s.presentWord w).draws = s.draws := rfl

/-! ## issueWord -/

@[simp] theorem State.issueWord_cfg (s : State) (w : Word) : (s.issueWord w).cfg = s.cfg := by
  unfold State.issueWord; split <;> rfl

@[simp] theorem State.issueWord_chans (s : State) (w : Word) : (s.issueWord w).chans = s.chans := by
  unfold State.issueWord; split <;> rfl

@[simp] theorem State.issueWord_schedule (s : State) (w : Word) : (s.issueWord w).schedule = s.schedule := by
  unfold State.issueWord; split <;> rfl

@[simp] theorem State.issueWord_presented (s : State) (w : Word) : (s.issueWord w).presented = s.presented := by
  unfold State.issueWord; split <;> rfl

@[simp] theorem State.issueWord_output (s : State) (w : Word) : (s.issueWord w).output = s.output := by
  unfold State.issueWord; split <;> rfl

@[simp] theorem State.issueWord_draws (s : State) (w : Word) : (s.issueWord w).draws = s.draws := by
  unfold State.issueWord; split <;> rfl

/-! ## acknowledge -/

@[simp] theorem State.acknowledge_cfg (s : State) : s.acknowledge.cfg = s.cfg := by
  unfold State.acknowledge; split <;> rfl

@[simp] theorem State.acknowledge_chans (s : State) : s.acknowledge.chans = s.chans := by
  unfold State.acknowledge; split <;> rfl

@[simp] theorem State.acknowledge_schedule (s : State) : s.acknowledge.schedule = s.schedule := by
  unfold State.acknowledge; split <;> rfl

@[simp] theorem State.acknowledge_presented (s : State) : s.acknowledge.presented = s.presented := by
  unfold State.acknowledge; split <;> rfl

@[simp] theorem State.acknowledge_draws (s : State) : s.acknowledge.draws = s.draws := by
  unfold State.acknowledge; split <;> rfl

/-! ## assertReset -/

@[simp] theorem State.assertReset_cfg (s : State) : s.assertReset.cfg = s.cfg := rfl

@[simp] theorem State.assertReset_chans (s : State) : s.assertReset.chans = (State.resetOf s.cfg).chans := rfl

@[simp] theorem State.assertReset_sync (s : State) : s.assertReset.sync = (State.resetOf s.cfg).sync := rfl

@[simp] theorem State.assertReset_schedule (s : State) : s.assertReset.schedule = s.schedule := rfl

@[simp] theorem State.assertReset_presented (s : State) : s.assertReset.presented = (State.resetOf s.cfg).presented := rfl

@[simp] theorem State.assertReset_output (s : State) : s.assertReset.output = (State.resetOf s.cfg).output := rfl

@[simp] theorem State.assertReset_draws (s : State) : s.assertReset.draws = s.draws := rfl

/-! ## resetOf -/

@[simp] theorem State.resetOf_cfg (c : Config) : (State.resetOf c).cfg = c := rfl

@[simp] theorem State.resetOf_sync (c : Config) : (State.resetOf c).sync = .idle := rfl

@[simp] theorem State.resetOf_presented (c : Config) : (State.resetOf c).presented = [] := rfl

@[simp] theorem State.resetOf_schedule (c : Config) : (State.resetOf c).schedule = [] := rfl

@[simp] theorem State.resetOf_output (c : Config) : (State.resetOf c).output = none := rfl

@[simp] theorem State.resetOf_draws (c : Config) : (State.resetOf c).draws = 0 := rfl

@[simp] theorem State.resetOf_chans (c : Config) : (State.resetOf c).chans = (List.range c.channels).map fun ch => Channel.reset (c.lastTs0 ch) := rfl

/-! ## Channel records -/

theorem State.chan_eq {s : State} {ch : Nat} {c : Channel} (h : s.chans[ch]? = some c) : s.chan ch = c := by
  simp [State.chan, List.getD, h]

theorem State.chan_congr {s t : State} (h : s.chans = t.chans) (ch : Nat) : s.chan ch = t.chan ch := by
  unfold State.chan; rw [h]

/-- A present channel's record is found where it stands. -/
theorem State.getElem?_chan {s : State} {ch : Nat} (h : ch < s.chans.length) : s.chans[ch]? = some (s.chan ch) := by
  simp [State.chan, List.getD, h]

theorem State.chan_setChan_same {s : State} {ch : Nat} {c : Channel} (h : ch < s.chans.length) :
    (s.setChan ch c).chan ch = c := by
  simp [State.chan, List.getD, h]

theorem State.chan_setChan_other {s : State} {ch k : Nat} {c : Channel} (h : ch ≠ k) :
    (s.setChan ch c).chan k = s.chan k := by
  simp [State.chan, List.getD, h]

theorem State.mem_chans_chan {s : State} {ch : Nat} (h : ch < s.chans.length) : s.chan ch ∈ s.chans := by
  simp [State.chan, List.getD, h]

/-! ## Responses -/

theorem Response.ok_zero (v : Word) : Response.Ok { status := 0, data := v } := by
  simp [Response.Ok]

theorem Response.ok_reject (code : RejectCode) : Response.Ok { status := code.status, data := 0 } := by
  cases code <;> simp [Response.Ok, RejectCode.status]

end Sys2Proof.Machine
end

