-- ==== Sys2Proof/Laws/Edge.lean ====
section
/-! SUPPORT. What one edge step does to a channel's record: the cases of R91, and the invariant of R33. -/

namespace Sys2Proof.Machine

theorem Cursor.toNat_succ {w : Cursor} (h : w.toNat < 127) : (w + 1).toNat = w.toNat + 1 := by
  simp [BitVec.toNat_add]; omega

theorem Cursor.toNat_one : (1 : Cursor).toNat = 1 := rfl

/-- With the document's `TS_W` the duration is `sub16` (R12, R82). -/
theorem duration_of_tsW {cfg : Config} (h : cfg.tsW = 16) (ts last : Tick) : duration cfg ts last = sub16 ts last := by
  have := (sub16 ts last).isLt
  rw [duration, h, Nat.mod_eq_of_lt this, BitVec.ofNat_toNat, BitVec.setWidth_eq]

/-- The duration as a number (R82). -/
theorem duration_toNat {cfg : Config} (h : cfg.wf = true) (ts last : Tick) :
    (duration cfg ts last).toNat = (ts.toNat + 65536 - last.toNat) % 2 ^ cfg.tsW := by
  have hd : 2 ^ cfg.tsW ∣ 65536 := Nat.pow_dvd_pow 2 (Config.tsW_le h)
  have hl := last.isLt
  have he : 65536 - last.toNat + ts.toNat = ts.toNat + 65536 - last.toNat := by omega
  rw [duration, BitVec.toNat_ofNat, sub16, BitVec.toNat_sub, he, Nat.mod_mod_of_dvd _ hd]
  exact Nat.mod_eq_of_lt (Nat.lt_of_lt_of_le (Nat.mod_lt _ (Nat.two_pow_pos _)) (Nat.le_of_dvd (by decide) hd))

/-- Step 2 (R84): every edge step leaves its timestamp. -/
@[simp] theorem edgeStep_lastTs (cfg : Config) (ts : Tick) (c : Channel) : (edgeStep cfg ts c).lastTs = ts := by
  unfold edgeStep Channel.finish Channel.store Channel.detect Channel.finishFrame Channel.startCapture
  dsimp only
  split <;> split <;> split <;> rfl

/-- Case E1 of R91. -/
theorem edgeStep_leader {cfg : Config} {ts : Tick} {c : Channel} (hw : cfg.wf = true)
    (hl : leaderShaped cfg (duration cfg ts c.lastTs) = true) :
    edgeStep cfg ts c =
      { c with lastTs := ts, buf := c.buf.write 0 (duration cfg ts c.lastTs), wcur := 1, ld := true } := by
  have h1 := Config.two_le_samples hw
  have h2 := Config.samples_le_capacity hw
  have h3 : 0 < cfg.capacity := by omega
  have h4 : ¬ 1 = cfg.samples := by omega
  simp [edgeStep, Channel.detect, Channel.startCapture, Channel.store, Channel.finish, hl, h3, h4]

/-- Case E2 of R91. -/
theorem edgeStep_ignored {cfg : Config} {ts : Tick} {c : Channel} (hn : c.wcur.toNat ≠ cfg.samples)
    (hl : leaderShaped cfg (duration cfg ts c.lastTs) = false) (hd : c.ld = false) :
    edgeStep cfg ts c = { c with lastTs := ts } := by
  simp [edgeStep, Channel.detect, Channel.store, Channel.finish, hl, hd, hn]

/-- Case E3 of R91. -/
theorem edgeStep_stored {cfg : Config} {ts : Tick} {c : Channel} (hw : cfg.wf = true)
    (hl : leaderShaped cfg (duration cfg ts c.lastTs) = false) (hd : c.ld = true) (hc : c.wcur.toNat + 1 < cfg.samples) :
    edgeStep cfg ts c =
      { c with lastTs := ts, buf := c.buf.write c.wcur.toNat (duration cfg ts c.lastTs), wcur := c.wcur + 1 } := by
  have h2 := Config.samples_le_capacity hw
  have h3 := Config.capacity_le hw
  have h4 : c.wcur.toNat < cfg.capacity := by omega
  have h6 : ¬ (c.wcur.toNat + 1) % 128 = cfg.samples := by omega
  simp [edgeStep, Channel.detect, Channel.store, Channel.finish, hl, hd, h4, h6]

/-- Case E4 of R91. -/
theorem edgeStep_completes {cfg : Config} {ts : Tick} {c : Channel} (hw : cfg.wf = true)
    (hl : leaderShaped cfg (duration cfg ts c.lastTs) = false) (hd : c.ld = true) (hc : c.wcur.toNat + 1 = cfg.samples) :
    edgeStep cfg ts c =
      { lastTs := ts, buf := c.buf.write c.wcur.toNat (duration cfg ts c.lastTs), wcur := 0, ld := false, fc := true } := by
  have h2 := Config.samples_le_capacity hw
  have h3 := Config.capacity_le hw
  have h4 : c.wcur.toNat < cfg.capacity := by omega
  have h6 : (c.wcur.toNat + 1) % 128 = cfg.samples := by omega
  simp [edgeStep, Channel.detect, Channel.store, Channel.finish, Channel.finishFrame, hl, hd, h4, h6]

/-- The guard of step 4 (R86), in a state that no run reaches (R92): with the buffer full nothing is stored. -/
theorem edgeStep_full {cfg : Config} {ts : Tick} {c : Channel}
    (hl : leaderShaped cfg (duration cfg ts c.lastTs) = false) (hc : cfg.capacity ≤ c.wcur.toNat)
    (hn : c.wcur.toNat ≠ cfg.samples) :
    edgeStep cfg ts c = { c with lastTs := ts } := by
  have h4 : ¬ c.wcur.toNat < cfg.capacity := by omega
  simp [edgeStep, Channel.detect, Channel.store, Channel.finish, hl, h4, hn]

/-- The four cases of R91, for a cursor at most `T - 1`. -/
theorem edgeStep_cases (cfg : Config) (ts : Tick) (c : Channel) (hw : cfg.wf = true)
    (hc : c.wcur.toNat < cfg.samples) :
    (leaderShaped cfg (duration cfg ts c.lastTs) = true ∧ edgeStep cfg ts c =
      { c with lastTs := ts, buf := c.buf.write 0 (duration cfg ts c.lastTs), wcur := 1, ld := true }) ∨
    (leaderShaped cfg (duration cfg ts c.lastTs) = false ∧ c.ld = false ∧ edgeStep cfg ts c = { c with lastTs := ts }) ∨
    (leaderShaped cfg (duration cfg ts c.lastTs) = false ∧ c.ld = true ∧ c.wcur.toNat + 1 < cfg.samples ∧ edgeStep cfg ts c =
      { c with lastTs := ts, buf := c.buf.write c.wcur.toNat (duration cfg ts c.lastTs), wcur := c.wcur + 1 }) ∨
    (leaderShaped cfg (duration cfg ts c.lastTs) = false ∧ c.ld = true ∧ c.wcur.toNat + 1 = cfg.samples ∧ edgeStep cfg ts c =
      { lastTs := ts, buf := c.buf.write c.wcur.toNat (duration cfg ts c.lastTs), wcur := 0, ld := false, fc := true }) := by
  cases hl : leaderShaped cfg (duration cfg ts c.lastTs) with
  | true => exact .inl ⟨rfl, edgeStep_leader hw hl⟩
  | false =>
    cases hd : c.ld with
    | false => exact .inr (.inl ⟨rfl, rfl, by rw [edgeStep_ignored (by omega) hl hd, hd]⟩)
    | true =>
      by_cases h : c.wcur.toNat + 1 < cfg.samples
      · exact .inr (.inr (.inl ⟨rfl, rfl, h, by rw [edgeStep_stored hw hl hd h, hd]⟩))
      · exact .inr (.inr (.inr ⟨rfl, rfl, by omega, edgeStep_completes hw hl hd (by omega)⟩))

theorem Channel.leaderFirst_iff {cfg : Config} {c : Channel} :
    c.leaderFirst cfg = true ↔ ∃ d, c.buf.read 0 = some d ∧ leaderShaped cfg d = true := by
  unfold Channel.leaderFirst
  cases c.buf.read 0 <;> simp

/-- An edge step keeps the invariant of R33. -/
theorem edgeStep_inv {cfg : Config} {ts : Tick} {c : Channel} (hw : cfg.wf = true) (h : c.Inv cfg) :
    (edgeStep cfg ts c).Inv cfg := by
  obtain ⟨hwf, hbelow, hcur, hcap, hsamp, hfc⟩ := h
  have hT := Config.two_le_samples hw
  have hC := Config.samples_le_capacity hw
  have h127 := Config.capacity_le hw
  rcases edgeStep_cases cfg ts c hw hcur with ⟨hl, e⟩ | ⟨_, hd, e⟩ | ⟨_, hd, hlt, e⟩ | ⟨_, hd, heq, e⟩ <;> rw [e]
  · refine ⟨Memory.wf_write hwf, Memory.below_write hbelow (by omega), ?_, fun _ => ⟨?_, ?_⟩, fun _ i hi => ?_, fun hf i hi => ?_⟩
    · simp only [Cursor.toNat_one]; omega
    · simp
    · exact Channel.leaderFirst_iff.2 ⟨_, Memory.read_write_same _ _ _, hl⟩
    · have : i = 0 := by simp only [Cursor.toNat_one] at hi; omega
      subst this; simp
    · exact Memory.isSome_read_write (hfc hf i hi)
  · exact ⟨hwf, hbelow, hcur, fun h => by simp [hd] at h, fun h => by simp [hd] at h, hfc⟩
  · have hs := Cursor.toNat_succ (w := c.wcur) (by omega)
    have h1 := (hcap hd).1
    refine ⟨Memory.wf_write hwf, Memory.below_write hbelow hcur, ?_, fun _ => ⟨?_, ?_⟩, fun _ i hi => ?_, fun hf i hi => ?_⟩
    · simp only [hs]; omega
    · simp only [hs]; omega
    · obtain ⟨d, h0, h0'⟩ := Channel.leaderFirst_iff.1 (hcap hd).2
      exact Channel.leaderFirst_iff.2 ⟨d, by rw [Memory.read_write_other (by omega)]; exact h0, h0'⟩
    · simp only [hs] at hi
      rw [Memory.read_write]
      split
      · rfl
      · exact hsamp hd i (by omega)
    · exact Memory.isSome_read_write (hfc hf i hi)
  · refine ⟨Memory.wf_write hwf, Memory.below_write hbelow hcur, by simp; omega, by simp, by simp, fun _ i hi => ?_⟩
    rw [Memory.read_write]
    split
    · rfl
    · exact hsamp hd i (by omega)

theorem Channel.reset_inv {cfg : Config} (hw : cfg.wf = true) (t : Tick) : (Channel.reset t).Inv cfg := by
  have := Config.two_le_samples hw
  refine ⟨rfl, rfl, ?_, by simp [Channel.reset], by simp [Channel.reset], by simp [Channel.reset]⟩
  simp [Channel.reset]; omega

theorem Channel.clearFc_inv {cfg : Config} {c : Channel} (h : c.Inv cfg) : c.clearFc.Inv cfg :=
  ⟨h.1, h.2.1, h.2.2.1, h.2.2.2.1, h.2.2.2.2.1, by simp [Channel.clearFc]⟩

theorem Channel.clearLd_inv {cfg : Config} {c : Channel} (h : c.Inv cfg) : c.clearLd.Inv cfg :=
  ⟨h.1, h.2.1, h.2.2.1, by simp [Channel.clearLd], by simp [Channel.clearLd], h.2.2.2.2.2⟩

end Sys2Proof.Machine
end

