-- ==== Sys2Proof/Laws/Ops.lean ====
section
/-! SUPPORT. What the shared operations can do: `accepted`, `bufRead`, DECODE's loop, and `exec` as a whole. -/

namespace Sys2Proof.Machine

/-! ## accepted -/

theorem State.accepted_of_none {s e : State} {i : Instr} (h : rangeReject s.cfg i = none) :
    s.accepted i e = .next e := by
  simp [State.accepted, h]

theorem State.accepted_of_some {s e : State} {i : Instr} {code : RejectCode} (h : rangeReject s.cfg i = some code) :
    s.accepted i e = .next (s.reject i.port code) := by
  simp [State.accepted, h]

/-! ## bufRead -/

theorem State.bufRead_written {s : State} {ch i : Nat} {v : Tick} (h : (s.chan ch).buf.read i = some v) :
    s.bufRead ch i = (v, s) := by
  simp [State.bufRead, h]

theorem State.bufRead_unwritten {s : State} {ch i : Nat} (h : (s.chan ch).buf.read i = none) :
    s.bufRead ch i = s.draw16 := by
  simp [State.bufRead, h]

/-- A read leaves everything but the supply of free values (R50). -/
theorem State.bufRead_state (s : State) (ch i : Nat) :
    (s.bufRead ch i).2 = { s with draws := (s.bufRead ch i).2.draws } := by
  unfold State.bufRead
  split <;> rfl

theorem State.bufRead_draws_le (s : State) (ch i : Nat) : s.draws ≤ (s.bufRead ch i).2.draws := by
  unfold State.bufRead
  split <;> simp

/-! ## DECODE's loop -/

theorem State.mapBits_succ (s : State) (ch b : Nat) :
    s.mapBits ch (b + 1) =
      ((s.mapBits ch b).1 ||| zextFlag (bitOf s.cfg ((s.mapBits ch b).2.bufRead ch (spaceIndex b)).1) <<< b,
        ((s.mapBits ch b).2.bufRead ch (spaceIndex b)).2) := rfl

/-- DECODE's reads leave everything but the supply of free values (R50, R100). -/
theorem State.mapBits_state (s : State) (ch n : Nat) :
    (s.mapBits ch n).2 = { s with draws := (s.mapBits ch n).2.draws } := by
  induction n with
  | zero => rfl
  | succ b ih =>
    rw [State.mapBits_succ]
    have := State.bufRead_state (s.mapBits ch b).2 ch (spaceIndex b)
    dsimp only
    rw [this, ih]

theorem State.mapBits_draws_le (s : State) (ch n : Nat) : s.draws ≤ (s.mapBits ch n).2.draws := by
  induction n with
  | zero => exact Nat.le_refl _
  | succ b ih =>
    rw [State.mapBits_succ]
    exact Nat.le_trans ih (State.bufRead_draws_le _ _ _)

theorem State.mapBits_chan (s : State) (ch n k : Nat) : (s.mapBits ch n).2.chan k = s.chan k := by
  rw [State.mapBits_state]; rfl

theorem getLsbD_zextFlag_shift (v : Bool) (b k : Nat) (hk : k < 32) :
    (zextFlag v <<< b : Word).getLsbD k = (decide (k = b) && v) := by
  have h1 : ∀ m : Nat, (1#32).getLsbD m = decide (m = 0) := by intro m; simp
  cases v
  · simp [zextFlag]
  · simp only [zextFlag, if_true, BitVec.getLsbD_shiftLeft, BitVec.ofNat_eq_ofNat, h1]
    grind

/-- Bit `k` of the value after `n` rounds: the bit of the space read in round `k` (R100). -/
theorem State.getLsbD_mapBits (s : State) (ch n k : Nat) (hk : k < 32) :
    (s.mapBits ch n).1.getLsbD k =
      (decide (k < n) && bitOf s.cfg ((s.mapBits ch k).2.bufRead ch (spaceIndex k)).1) := by
  induction n with
  | zero => simp [State.mapBits]
  | succ b ih =>
    rw [State.mapBits_succ, BitVec.getLsbD_or, ih, getLsbD_zextFlag_shift _ _ _ hk]
    rcases Nat.lt_trichotomy k b with h | h | h
    · have h1 : k ≠ b := by omega
      have h2 : k < b + 1 := by omega
      simp [h, h1, h2]
    · subst h; simp
    · have h1 : k ≠ b := by omega
      have h2 : ¬ k < b + 1 := by omega
      have h3 : ¬ k < b := by omega
      simp [h1, h2, h3]

/-- A written space decides its bit, whatever the other entries hold (R100, R101). -/
theorem State.getLsbD_mapBits_written {s : State} {ch n k : Nat} {v : Tick} (hk : k < 32) (hn : k < n)
    (h : (s.chan ch).buf.read (spaceIndex k) = some v) :
    (s.mapBits ch n).1.getLsbD k = bitOf s.cfg v := by
  rw [State.getLsbD_mapBits _ _ _ _ hk,
    State.bufRead_written (v := v) (by rw [State.mapBits_chan]; exact h)]
  simp [hn]

/-! ## EDGE's body -/

/-- EDGE's body changes channel records and the supply of free values only (R88). -/
theorem State.edgeBody_state (s : State) (ch : Nat) (ts : Tick) :
    s.edgeBody ch ts = { s with chans := (s.edgeBody ch ts).chans, draws := (s.edgeBody ch ts).draws } := by
  unfold State.edgeBody
  dsimp only
  split
  · rfl
  · split <;> rfl

theorem State.edgeBody_draws_le (s : State) (ch : Nat) (ts : Tick) : s.draws ≤ (s.edgeBody ch ts).draws := by
  unfold State.edgeBody
  dsimp only
  split
  · simp
  · split <;> simp

/-! ## exec -/

/-- `exec` always answers a next state: IRPC has no fault, and every operation has its meaning (R130, R136). -/
theorem exec_next (i : Instr) (s : State) : ∃ t, exec i s = .next t := by
  cases i <;>
    simp only [exec, execEdge, execRdfc, execRdld, execRdsamp, execDecode, execClrfc, execClrld, State.accepted] <;>
    split <;> exact ⟨_, rfl⟩

end Sys2Proof.Machine
end

