-- ==== Sys2Proof/Laws/Exec.lean ====
section
/-! SUPPORT. What `exec` answers, operation by operation, and what any operation does to one channel's record. -/

namespace Sys2Proof.Machine

/-! ## One equation per operation -/

/-- A command out of range is rejected (R64). -/
theorem exec_reject {s : State} {i : Instr} {code : RejectCode} (h : rangeReject s.cfg i = some code) :
    exec i s = .next (s.reject i.port code) := by
  cases i <;> exact State.accepted_of_some h

theorem exec_edge {s : State} {ch : ChanNo} {ts : Tick} (h : ch.toNat < s.cfg.channels) :
    exec (.edge ch ts) s = .next ((s.edgeBody ch.toNat ts).respond .capture 0) :=
  State.accepted_of_none (rangeReject_none_of h rfl)

theorem exec_rdfc {s : State} {ch : ChanNo} (h : ch.toNat < s.cfg.channels) :
    exec (.rdfc ch) s = .next (s.respond .consumer (zextFlag (s.chan ch.toNat).fc)) :=
  State.accepted_of_none (rangeReject_none_of h rfl)

theorem exec_rdld {s : State} {ch : ChanNo} (h : ch.toNat < s.cfg.channels) :
    exec (.rdld ch) s = .next (s.respond .consumer (zextFlag (s.chan ch.toNat).ld)) :=
  State.accepted_of_none (rangeReject_none_of h rfl)

theorem exec_rdsamp {s : State} {ch : ChanNo} {idx : BitVec 8} (h : ch.toNat < s.cfg.channels)
    (hi : idx.toNat < s.cfg.capacity) :
    exec (.rdsamp ch idx) s =
      .next ((s.bufRead ch.toNat idx.toNat).2.respond .consumer (zextSample (s.bufRead ch.toNat idx.toNat).1)) :=
  State.accepted_of_none (rangeReject_none_of h (by simpa [indexInRange] using hi))

theorem exec_decode {s : State} {ch : ChanNo} (h : ch.toNat < s.cfg.channels) :
    exec (.decode ch) s =
      .next ((s.mapBits ch.toNat s.cfg.nbits).2.respond .consumer (s.mapBits ch.toNat s.cfg.nbits).1) :=
  State.accepted_of_none (rangeReject_none_of h rfl)

theorem exec_clrfc {s : State} {ch : ChanNo} (h : ch.toNat < s.cfg.channels) :
    exec (.clrfc ch) s = .next ((s.setChan ch.toNat (s.chan ch.toNat).clearFc).respond .consumer 0) :=
  State.accepted_of_none (rangeReject_none_of h rfl)

theorem exec_clrld {s : State} {ch : ChanNo} (h : ch.toNat < s.cfg.channels) :
    exec (.clrld ch) s = .next ((s.setChan ch.toNat (s.chan ch.toNat).clearLd).respond .consumer 0) :=
  State.accepted_of_none (rangeReject_none_of h rfl)

/-! ## EDGE under the two policies -/

theorem State.edgeBody_notSource {s : State} {ch : Nat} {ts : Tick} (h : notSource s.cfg ch = true) :
    s.edgeBody ch ts = s.edgeStepOn ch ts := by
  unfold State.edgeBody notSource at *
  cases hs : s.cfg.service with
  | signaledOnly => rfl
  | fallthrough a b =>
    rw [hs] at h
    have : ch ≠ a := fun e => by simp [e] at h
    simp [this]

theorem State.edgeBody_fallthrough {s : State} {ch b : Nat} {ts : Tick} (h : s.cfg.service = .fallthrough ch b) :
    s.edgeBody ch ts = (s.edgeStepOn ch ts).draw16.2.edgeStepOn b (Config.draw16 s.draws) := by
  unfold State.edgeBody
  rw [h]
  simp

/-! ## One channel under one operation -/

/-- What an operation that is accepted does to the record of channel `k`, when no fallthrough reaches `k` (R17). -/
def chanEffect (cfg : Config) (k : Nat) (i : Instr) (c : Channel) : Channel :=
  match i with
  | .edge ch ts => if ch.toNat = k then edgeStep cfg ts c else c
  | .clrfc ch => if ch.toNat = k then c.clearFc else c
  | .clrld ch => if ch.toNat = k then c.clearLd else c
  | .rdfc _ | .rdld _ | .rdsamp _ _ | .decode _ => c

theorem State.setChan_getElem? (s : State) (ch k : Nat) (f : Channel → Channel) :
    (s.setChan ch (f (s.chan ch))).chans[k]? = if ch = k then (s.chans[k]?).map f else s.chans[k]? := by
  by_cases h : ch = k
  · subst h
    by_cases hl : ch < s.chans.length
    · simp [State.chan, List.getD, hl]
    · simp [hl]
  · simp [h]

theorem State.edgeBody_getElem? {s : State} {ch k : Nat} {ts : Tick} (h : notTarget s.cfg k = true) :
    (s.edgeBody ch ts).chans[k]? =
      if ch = k then (s.chans[k]?).map (edgeStep s.cfg ts) else s.chans[k]? := by
  have h1 : (s.edgeStepOn ch ts).chans[k]? =
      if ch = k then (s.chans[k]?).map (edgeStep s.cfg ts) else s.chans[k]? :=
    State.setChan_getElem? s ch k (edgeStep s.cfg ts)
  unfold State.edgeBody notTarget at *
  cases hs : s.cfg.service with
  | signaledOnly => simpa using h1
  | fallthrough a b =>
    rw [hs] at h
    have hb : b ≠ k := by simpa using h
    dsimp only
    split
    · rw [← h1]
      show (((s.edgeStepOn ch ts).draw16.2).edgeStepOn b _).chans[k]? = _
      rw [State.edgeStepOn_chans, List.getElem?_set_ne hb, State.draw16_chans]
    · exact h1

/-- What an operation does once it is accepted. -/
def effect (i : Instr) (s : State) : State :=
  match i with
  | .edge ch ts => (s.edgeBody ch.toNat ts).respond .capture 0
  | .rdfc ch => s.respond .consumer (zextFlag (s.chan ch.toNat).fc)
  | .rdld ch => s.respond .consumer (zextFlag (s.chan ch.toNat).ld)
  | .rdsamp ch idx => (s.bufRead ch.toNat idx.toNat).2.respond .consumer (zextSample (s.bufRead ch.toNat idx.toNat).1)
  | .decode ch => (s.mapBits ch.toNat s.cfg.nbits).2.respond .consumer (s.mapBits ch.toNat s.cfg.nbits).1
  | .clrfc ch => (s.setChan ch.toNat (s.chan ch.toNat).clearFc).respond .consumer 0
  | .clrld ch => (s.setChan ch.toNat (s.chan ch.toNat).clearLd).respond .consumer 0

theorem exec_eq_accepted (i : Instr) (s : State) : exec i s = s.accepted i (effect i s) := by
  cases i <;> rfl

/-- All that an operation can do: it is rejected, or it has its effect (R66, R130). -/
theorem exec_cases {s t : State} {i : Instr} (h : exec i s = .next t) :
    (∃ code, rangeReject s.cfg i = some code ∧ t = s.reject i.port code) ∨
    (rangeReject s.cfg i = none ∧ t = effect i s) := by
  cases hr : rangeReject s.cfg i with
  | some code => rw [exec_reject hr] at h; injection h with h; exact .inl ⟨code, rfl, h.symm⟩
  | none =>
    rw [exec_eq_accepted, State.accepted_of_none hr] at h
    injection h with h; exact .inr ⟨rfl, h.symm⟩

/-- The frame of an accepted operation: what none of them changes. -/
theorem effect_keeps (i : Instr) (s : State) :
    (effect i s).cfg = s.cfg ∧ (effect i s).schedule = s.schedule ∧ (effect i s).presented = s.presented ∧
    (effect i s).chans.length = s.chans.length ∧ s.draws ≤ (effect i s).draws := by
  cases i with
  | edge ch ts =>
    have hl : (s.edgeBody ch.toNat ts).chans.length = s.chans.length := by
      unfold State.edgeBody; dsimp only; split
      · simp
      · split <;> simp
    simp only [effect, State.respond_cfg, State.respond_schedule, State.respond_presented, State.respond_chans,
      State.respond_draws]
    refine ⟨?_, ?_, ?_, hl, State.edgeBody_draws_le s ch.toNat ts⟩ <;> rw [State.edgeBody_state]
  | rdfc ch => simp [effect]
  | rdld ch => simp [effect]
  | rdsamp ch idx =>
    simp only [effect, State.respond_cfg, State.respond_schedule, State.respond_presented, State.respond_chans,
      State.respond_draws]
    refine ⟨?_, ?_, ?_, ?_, State.bufRead_draws_le s ch.toNat idx.toNat⟩ <;> rw [State.bufRead_state]
  | decode ch =>
    simp only [effect, State.respond_cfg, State.respond_schedule, State.respond_presented, State.respond_chans,
      State.respond_draws]
    refine ⟨?_, ?_, ?_, ?_, State.mapBits_draws_le s ch.toNat s.cfg.nbits⟩ <;> rw [State.mapBits_state]
  | clrfc ch => simp [effect]
  | clrld ch => simp [effect]

/-- An accepted operation, seen from one channel that no fallthrough reaches. -/
theorem effect_chan {i : Instr} {s : State} {k : Nat} (hn : notTarget s.cfg k = true) :
    (effect i s).chans[k]? = (s.chans[k]?).map (chanEffect s.cfg k i) := by
  have hid : ∀ o : Option Channel, o.map (fun c => c) = o := fun o => by cases o <;> rfl
  cases i with
  | edge ch ts =>
    show (s.edgeBody ch.toNat ts).chans[k]? =
      (s.chans[k]?).map fun c => if ch.toNat = k then edgeStep s.cfg ts c else c
    rw [State.edgeBody_getElem? hn]
    split
    · rfl
    · exact (hid _).symm
  | rdfc ch => exact (hid _).symm
  | rdld ch => exact (hid _).symm
  | rdsamp ch idx =>
    show (s.bufRead ch.toNat idx.toNat).2.chans[k]? = (s.chans[k]?).map fun c => c
    rw [State.bufRead_state, hid]
  | decode ch =>
    simp only [effect, State.respond_chans]
    rw [State.mapBits_state]
    exact (hid _).symm
  | clrfc ch =>
    show (s.setChan ch.toNat (s.chan ch.toNat).clearFc).chans[k]? =
      (s.chans[k]?).map fun c => if ch.toNat = k then c.clearFc else c
    rw [State.setChan_getElem? s ch.toNat k Channel.clearFc]
    split
    · rfl
    · exact (hid _).symm
  | clrld ch =>
    show (s.setChan ch.toNat (s.chan ch.toNat).clearLd).chans[k]? =
      (s.chans[k]?).map fun c => if ch.toNat = k then c.clearLd else c
    rw [State.setChan_getElem? s ch.toNat k Channel.clearLd]
    split
    · rfl
    · exact (hid _).symm

theorem chanEffect_of_ne {cfg : Config} {k : Nat} {i : Instr} (h : i.chan.toNat ≠ k) (c : Channel) :
    chanEffect cfg k i c = c := by
  cases i <;> simp_all [chanEffect, Instr.chan]

theorem chanEffect_of_badIndex {cfg : Config} {k : Nat} {i : Instr} (h : indexInRange cfg i = false) (c : Channel) :
    chanEffect cfg k i c = c := by
  cases i <;> simp_all [chanEffect, indexInRange]

/-- One operation, seen from one channel that is present and in no fallthrough's way. -/
theorem exec_chan {s t : State} {i : Instr} {k : Nat} (hk : k < s.cfg.channels) (hn : notTarget s.cfg k = true)
    (h : exec i s = .next t) : t.chans[k]? = (s.chans[k]?).map (chanEffect s.cfg k i) := by
  rcases exec_cases h with ⟨code, hr, rfl⟩ | ⟨_, rfl⟩
  · have hid : ∀ c, chanEffect s.cfg k i c = c := by
      intro c
      rcases rangeReject_cases s.cfg i with ⟨h1, _⟩ | ⟨_, h1, _⟩ | ⟨_, _, e⟩
      · exact chanEffect_of_ne (by omega) c
      · exact chanEffect_of_badIndex h1 c
      · rw [hr] at e; cases e
    rw [State.reject_chans]
    cases s.chans[k]? <;> simp [hid]
  · exact effect_chan hn

/-- What no operation changes, and that free values are only used up. -/
theorem exec_keeps {s t : State} {i : Instr} (h : exec i s = .next t) :
    t.cfg = s.cfg ∧ t.schedule = s.schedule ∧ t.presented = s.presented ∧ t.chans.length = s.chans.length ∧
    s.draws ≤ t.draws := by
  rcases exec_cases h with ⟨code, _, rfl⟩ | ⟨_, rfl⟩
  · simp
  · exact effect_keeps i s

/-- Where a response goes (R65): an EDGE's to the capture port, a consumer operation's to the transaction. -/
theorem exec_answers {s t : State} {i : Instr} (h : exec i s = .next t) :
    (i.port = .capture ∧ t.sync = s.sync ∧ ∃ r : Response, r.Ok ∧ t.output = some { port := .capture, response := r }) ∨
    (i.port = .consumer ∧ t.output = s.output ∧ ∃ r : Response, r.Ok ∧ t.sync = .responded r) := by
  rcases exec_cases h with ⟨code, _, rfl⟩ | ⟨_, rfl⟩
  · cases hp : i.port
    · exact .inl ⟨rfl, by simp, _, Response.ok_reject code, by simp⟩
    · exact .inr ⟨rfl, by simp, _, Response.ok_reject code, by simp⟩
  · cases i with
    | edge ch ts =>
      refine .inl ⟨rfl, ?_, _, Response.ok_zero 0, by simp [effect]⟩
      simp only [effect, State.respond_capture_sync]; rw [State.edgeBody_state]
    | rdfc ch => exact .inr ⟨rfl, rfl, _, Response.ok_zero _, rfl⟩
    | rdld ch => exact .inr ⟨rfl, rfl, _, Response.ok_zero _, rfl⟩
    | rdsamp ch idx =>
      refine .inr ⟨rfl, ?_, _, Response.ok_zero _, rfl⟩
      simp only [effect, State.respond_consumer_output]; rw [State.bufRead_state]
    | decode ch =>
      refine .inr ⟨rfl, ?_, _, Response.ok_zero _, rfl⟩
      simp only [effect, State.respond_consumer_output]; rw [State.mapBits_state]
    | clrfc ch => exact .inr ⟨rfl, rfl, _, Response.ok_zero 0, rfl⟩
    | clrld ch => exact .inr ⟨rfl, rfl, _, Response.ok_zero 0, rfl⟩

end Sys2Proof.Machine
end

