-- ==== Sys2Proof/Laws/PerInstr.lean ====
section
/-! SUPPORT. One family of facts about every command as syntax: what the fields of its word hold (R60, R61, R63). -/

namespace Sys2Proof.Laws.WordFields

/-- The word of a command holds its operation code and its channel, and the operation's reserved fields are zero. -/
def Statement (i : Instr) : Prop :=
  opcodeOf (opField (encode i)) = some i.opcode ∧ chField (encode i) = i.chan ∧ reservedZero i.opcode (encode i) = true

theorem edge (ch : ChanNo) (ts : Tick) : Statement (.edge ch ts) := by
  simp [Statement, encode, opcodeOf_code, Instr.opcode, Instr.chan, reservedZero]

theorem rdfc (ch : ChanNo) : Statement (.rdfc ch) := by
  simp [Statement, encode, opcodeOf_code, Instr.opcode, Instr.chan, reservedZero]

theorem rdld (ch : ChanNo) : Statement (.rdld ch) := by
  simp [Statement, encode, opcodeOf_code, Instr.opcode, Instr.chan, reservedZero]

theorem rdsamp (ch : ChanNo) (idx : BitVec 8) : Statement (.rdsamp ch idx) := by
  simp [Statement, encode, opcodeOf_code, Instr.opcode, Instr.chan, reservedZero]

theorem decode (ch : ChanNo) : Statement (.decode ch) := by
  simp [Statement, encode, opcodeOf_code, Instr.opcode, Instr.chan, reservedZero]

theorem clrfc (ch : ChanNo) : Statement (.clrfc ch) := by
  simp [Statement, encode, opcodeOf_code, Instr.opcode, Instr.chan, reservedZero]

theorem clrld (ch : ChanNo) : Statement (.clrld ch) := by
  simp [Statement, encode, opcodeOf_code, Instr.opcode, Instr.chan, reservedZero]

end Sys2Proof.Laws.WordFields
end

