-- ==== Sys2Proof/Laws/Runs.lean ====
section
/-! SUPPORT. Sequences of operations (R44), and what a sequence does to one channel: the deltas it receives, and the
capture they make (R72, R85, R86). -/

namespace Sys2Proof.Machine

@[simp] theorem andThen_next {α : Type} (s : State) (k : State → Host.Outcome α Fault Refusal) :
    andThen (.next s) k = k s := rfl

@[simp] theorem runInstrs_nil (s : State) : runInstrs [] s = .next s := rfl

theorem runInstrs_cons (i : Instr) (is : List Instr) (s : State) :
    runInstrs (i :: is) s = andThen (exec i s) (runInstrs is) := rfl

theorem runInstrs_cons_next {i : Instr} {is : List Instr} {s t : State} (h : exec i s = .next t) :
    runInstrs (i :: is) s = runInstrs is t := by
  rw [runInstrs_cons, h, andThen_next]

theorem runInstrs_append_next {xs ys : List Instr} {s t : State} (h : runInstrs xs s = .next t) :
    runInstrs (xs ++ ys) s = runInstrs ys t := by
  induction xs generalizing s with
  | nil => injection h with h; rw [h]; rfl
  | cons i xs ih =>
    obtain ⟨u, hu⟩ := exec_next i s
    rw [runInstrs_cons_next hu] at h
    rw [List.cons_append, runInstrs_cons_next hu]
    exact ih h

/-- A sequence of operations never stops. -/
theorem runInstrs_next (is : List Instr) (s : State) : ∃ t, runInstrs is s = .next t := by
  induction is generalizing s with
  | nil => exact ⟨s, rfl⟩
  | cons i is ih =>
    obtain ⟨u, hu⟩ := exec_next i s
    rw [runInstrs_cons_next hu]
    exact ih u

/-- What no sequence of operations changes. -/
theorem runInstrs_keeps {is : List Instr} {s t : State} (h : runInstrs is s = .next t) :
    t.cfg = s.cfg ∧ t.schedule = s.schedule ∧ t.presented = s.presented ∧ t.chans.length = s.chans.length := by
  induction is generalizing s with
  | nil => injection h with h; subst h; simp
  | cons i is ih =>
    obtain ⟨u, hu⟩ := exec_next i s
    rw [runInstrs_cons_next hu] at h
    obtain ⟨a, b, c, d⟩ := ih h
    obtain ⟨a', b', c', d', _⟩ := exec_keeps hu
    exact ⟨a.trans a', b.trans b', c.trans c', d.trans d'⟩

/-- What a sequence of operations does to the record of a channel that no fallthrough reaches. -/
def chanRun (cfg : Config) (k : Nat) : List Instr → Channel → Channel
  | [], c => c
  | i :: is, c => chanRun cfg k is (chanEffect cfg k i c)

theorem chanRun_append (cfg : Config) (k : Nat) (xs ys : List Instr) (c : Channel) :
    chanRun cfg k (xs ++ ys) c = chanRun cfg k ys (chanRun cfg k xs c) := by
  induction xs generalizing c with
  | nil => rfl
  | cons i xs ih => exact ih _

/-- One operation, on a channel that is present and in no fallthrough's way. -/
theorem exec_has {s t : State} {i : Instr} {ch : ChanNo} {c : Channel} (hc : s.Has ch c)
    (hn : notTarget s.cfg ch.toNat = true) (h : exec i s = .next t) : t.Has ch (chanEffect s.cfg ch.toNat i c) := by
  refine ⟨by rw [(exec_keeps h).1]; exact hc.1, ?_⟩
  rw [exec_chan hc.1 hn h, hc.2]; rfl

/-- A sequence of operations, on a channel that is present and in no fallthrough's way. -/
theorem runInstrs_has {s : State} {ch : ChanNo} {c : Channel} (is : List Instr) (hc : s.Has ch c)
    (hn : notTarget s.cfg ch.toNat = true) :
    ∃ t, runInstrs is s = .next t ∧ t.cfg = s.cfg ∧ t.Has ch (chanRun s.cfg ch.toNat is c) := by
  induction is generalizing s c with
  | nil => exact ⟨s, rfl, rfl, hc⟩
  | cons i is ih =>
    obtain ⟨u, hu⟩ := exec_next i s
    have hcfg := (exec_keeps hu).1
    obtain ⟨t, ht, htc, hth⟩ := ih (exec_has hc hn hu) (by rw [hcfg]; exact hn)
    rw [hcfg] at htc hth
    exact ⟨t, by rw [runInstrs_cons_next hu]; exact ht, htc, hth⟩

/-! ## Deltas -/

theorem ChanNo.toNat_inj {a b : ChanNo} : a.toNat = b.toNat ↔ a = b := BitVec.toNat_inj

theorem stampsOn_append (ch : ChanNo) (xs ys : List Instr) :
    stampsOn ch (xs ++ ys) = stampsOn ch xs ++ stampsOn ch ys := by
  induction xs with
  | nil => rfl
  | cons i xs ih =>
    cases i <;> simp only [List.cons_append, stampsOn, ih]
    split <;> simp

theorem deltasFrom_length (cfg : Config) (last : Tick) (ts : List Tick) : (deltasFrom cfg last ts).length = ts.length := by
  induction ts generalizing last with
  | nil => rfl
  | cons t ts ih => simp [deltasFrom, ih]

/-- The operations that are no EDGE on a channel and no clear of its `ld` leave all but `fc` of its record. -/
theorem chanEffect_other {cfg : Config} {ch : ChanNo} {i : Instr} (c : Channel) (he : ∀ ts, i ≠ .edge ch ts)
    (hl : i ≠ .clrld ch) :
    chanEffect cfg ch.toNat i c = c ∨ (i = .clrfc ch ∧ chanEffect cfg ch.toNat i c = c.clearFc) := by
  cases i with
  | edge k ts =>
    have : k ≠ ch := fun e => he ts (by rw [e])
    exact .inl (by simp [chanEffect, ChanNo.toNat_inj, this])
  | clrfc k =>
    by_cases h : k = ch
    · subst h; exact .inr ⟨rfl, by simp [chanEffect]⟩
    · exact .inl (by simp [chanEffect, ChanNo.toNat_inj, h])
  | clrld k =>
    have : k ≠ ch := fun e => hl (by rw [e])
    exact .inl (by simp [chanEffect, ChanNo.toNat_inj, this])
  | rdfc k => exact .inl rfl
  | rdld k => exact .inl rfl
  | rdsamp k idx => exact .inl rfl
  | decode k => exact .inl rfl

theorem chanEffect_edge (cfg : Config) (ch : ChanNo) (ts : Tick) (c : Channel) :
    chanEffect cfg ch.toNat (.edge ch ts) c = edgeStep cfg ts c := by
  simp [chanEffect]

theorem deltasOn_cons_edge (cfg : Config) (ch : ChanNo) (last ts : Tick) (is : List Instr) :
    deltasOn cfg ch last (.edge ch ts :: is) = duration cfg ts last :: deltasOn cfg ch ts is := by
  simp [deltasOn, stampsOn, deltasFrom]

theorem stampsOn_cons_other {ch : ChanNo} {i : Instr} (is : List Instr) (he : ∀ ts, i ≠ .edge ch ts) :
    stampsOn ch (i :: is) = stampsOn ch is := by
  cases i with
  | edge k ts =>
    have : k ≠ ch := fun e => he ts (by rw [e])
    simp [stampsOn, this]
  | _ => rfl

theorem deltasOn_cons_other {cfg : Config} {ch : ChanNo} {i : Instr} (last : Tick) (is : List Instr) (he : ∀ ts, i ≠ .edge ch ts) :
    deltasOn cfg ch last (i :: is) = deltasOn cfg ch last is := by
  rw [deltasOn, stampsOn_cons_other is he]; rfl

/-- An operation is an EDGE on the channel or it is not. -/
theorem edgeOn_or_not (ch : ChanNo) (i : Instr) : (∃ ts, i = .edge ch ts) ∨ ∀ ts, i ≠ .edge ch ts := by
  cases i with
  | edge k ts =>
    by_cases h : k = ch
    · exact .inl ⟨ts, by rw [h]⟩
    · exact .inr fun us e => h (by injection e)
  | _ => exact .inr fun us e => by cases e

/-- The timestamp a sequence of operations leaves (R84). -/
theorem chanRun_lastTs (cfg : Config) (ch : ChanNo) (is : List Instr) (c : Channel) :
    (chanRun cfg ch.toNat is c).lastTs = ((stampsOn ch is).getLast?).getD c.lastTs := by
  induction is generalizing c with
  | nil => rfl
  | cons i is ih =>
    rw [chanRun, ih]
    rcases edgeOn_or_not ch i with ⟨ts, rfl⟩ | he
    · rw [chanEffect_edge, edgeStep_lastTs]
      simp [stampsOn, List.getLast?_cons]
    · rw [stampsOn_cons_other is he]
      have : (chanEffect cfg ch.toNat i c).lastTs = c.lastTs := by
        by_cases hl : i = .clrld ch
        · subst hl; simp [chanEffect, Channel.clearLd]
        · rcases chanEffect_other (cfg := cfg) c he hl with e | ⟨_, e⟩ <;> rw [e]
          rfl
      rw [this]

theorem deltasOn_append (cfg : Config) (ch : ChanNo) (c : Channel) (xs ys : List Instr) :
    deltasOn cfg ch c.lastTs (xs ++ ys) =
      deltasOn cfg ch c.lastTs xs ++ deltasOn cfg ch (chanRun cfg ch.toNat xs c).lastTs ys := by
  rw [chanRun_lastTs]
  have : ∀ (last : Tick) (as bs : List Tick),
      deltasFrom cfg last (as ++ bs) = deltasFrom cfg last as ++ deltasFrom cfg ((as.getLast?).getD last) bs := by
    intro last as
    induction as generalizing last with
    | nil => intro bs; rfl
    | cons a as ih => intro bs; simp [deltasFrom, ih, List.getLast?_cons]
  rw [deltasOn, stampsOn_append, this]; rfl

/-! ## Captures -/

/-- While no leader comes and nothing is being captured, a channel's buffer and cursor stay (R84, case E2 of R91). -/
theorem chanRun_quiet {cfg : Config} {ch : ChanNo} {is : List Instr} {c : Channel}
    (hl : noLeader cfg (deltasOn cfg ch c.lastTs is) = true) (hd : c.ld = false) (hw : c.wcur.toNat ≠ cfg.samples) :
    (chanRun cfg ch.toNat is c).ld = false ∧ (chanRun cfg ch.toNat is c).wcur = c.wcur ∧
    (chanRun cfg ch.toNat is c).buf = c.buf ∧
    (.clrfc ch ∉ is → (chanRun cfg ch.toNat is c).fc = c.fc) ∧
    (c.fc = false → (chanRun cfg ch.toNat is c).fc = false) := by
  induction is generalizing c with
  | nil => exact ⟨hd, rfl, rfl, fun _ => rfl, fun h => h⟩
  | cons i is ih =>
    rw [chanRun]
    rcases edgeOn_or_not ch i with ⟨ts, rfl⟩ | he
    · rw [deltasOn_cons_edge] at hl
      simp only [noLeader, List.all_cons, Bool.and_eq_true, Bool.not_eq_true'] at hl
      rw [chanEffect_edge, edgeStep_ignored hw hl.1 hd]
      have := ih (c := { c with lastTs := ts }) hl.2 hd hw
      simpa using this
    · rw [deltasOn_cons_other _ _ he] at hl
      by_cases hcl : i = .clrld ch
      · subst hcl
        have hb : chanEffect cfg ch.toNat (.clrld ch) c = c := by
          cases c; simp_all [chanEffect, Channel.clearLd]
        rw [hb]
        have := ih hl hd hw
        simpa using this
      · rcases chanEffect_other (cfg := cfg) c he hcl with e | ⟨rfl, e⟩ <;> rw [e]
        · have := ih hl hd hw
          refine ⟨this.1, this.2.1, this.2.2.1, fun h => this.2.2.2.1 (fun hm => h (List.mem_cons_of_mem _ hm)), this.2.2.2.2⟩
        · have := ih (c := c.clearFc) hl hd hw
          refine ⟨this.1, this.2.1, this.2.2.1, fun h => absurd (List.mem_cons_self ..) h, fun _ => this.2.2.2.2 rfl⟩

/-- A capture goes on: its next samples stand in order from the cursor, as long as they do not fill the frame. -/
theorem chanRun_capturing {cfg : Config} {ch : ChanNo} {is : List Instr} {c : Channel} (hw : cfg.wf = true)
    (hno : .clrld ch ∉ is) (hl : noLeader cfg (deltasOn cfg ch c.lastTs is) = true) (hd : c.ld = true)
    (hlen : c.wcur.toNat + (deltasOn cfg ch c.lastTs is).length < cfg.samples) :
    (chanRun cfg ch.toNat is c).ld = true ∧
    (chanRun cfg ch.toNat is c).wcur.toNat = c.wcur.toNat + (deltasOn cfg ch c.lastTs is).length ∧
    (∀ j, (chanRun cfg ch.toNat is c).buf.read j =
      if c.wcur.toNat ≤ j ∧ j < c.wcur.toNat + (deltasOn cfg ch c.lastTs is).length then
        (deltasOn cfg ch c.lastTs is)[j - c.wcur.toNat]?
      else c.buf.read j) ∧
    (.clrfc ch ∉ is → (chanRun cfg ch.toNat is c).fc = c.fc) := by
  induction is generalizing c with
  | nil =>
    refine ⟨hd, rfl, fun j => ?_, fun _ => rfl⟩
    have : ¬ (c.wcur.toNat ≤ j ∧ j < c.wcur.toNat + 0) := by omega
    simp only [deltasOn, stampsOn, deltasFrom, List.length_nil, this, if_false, chanRun]
  | cons i is ih =>
    have hno' : .clrld ch ∉ is := fun h => hno (List.mem_cons_of_mem _ h)
    rw [chanRun]
    rcases edgeOn_or_not ch i with ⟨ts, rfl⟩ | he
    · rw [deltasOn_cons_edge] at hl hlen ⊢
      simp only [noLeader, List.all_cons, Bool.and_eq_true, Bool.not_eq_true'] at hl
      simp only [List.length_cons] at hlen ⊢
      have h127 := Config.capacity_le hw
      have hTC := Config.samples_le_capacity hw
      have hs := Cursor.toNat_succ (w := c.wcur) (by omega)
      rw [chanEffect_edge, edgeStep_stored hw hl.1 hd (by omega)]
      have := ih (c := { c with lastTs := ts, buf := c.buf.write c.wcur.toNat (duration cfg ts c.lastTs), wcur := c.wcur + 1 })
        hno' hl.2 hd (by simp only [hs]; omega)
      simp only [hs] at this
      obtain ⟨h1, h2, h3, h4⟩ := this
      refine ⟨h1, by omega, fun j => ?_, fun h => h4 (fun hm => h (List.mem_cons_of_mem _ hm))⟩
      rw [h3 j, Memory.read_write]
      rcases Nat.lt_trichotomy j c.wcur.toNat with hj | hj | hj
      · have a1 : ¬ (c.wcur.toNat + 1 ≤ j ∧ j < c.wcur.toNat + 1 + (deltasOn cfg ch ts is).length) := by omega
        have a2 : ¬ j = c.wcur.toNat := by omega
        have a3 : ¬ (c.wcur.toNat ≤ j ∧ j < c.wcur.toNat + ((deltasOn cfg ch ts is).length + 1)) := by omega
        rw [if_neg a1, if_neg a2, if_neg a3]
      · have a1 : ¬ (c.wcur.toNat + 1 ≤ j ∧ j < c.wcur.toNat + 1 + (deltasOn cfg ch ts is).length) := by omega
        have a3 : c.wcur.toNat ≤ j ∧ j < c.wcur.toNat + ((deltasOn cfg ch ts is).length + 1) := by omega
        rw [if_neg a1, if_pos hj, if_pos a3, hj]; simp
      · by_cases hj' : j < c.wcur.toNat + 1 + (deltasOn cfg ch ts is).length
        · have a1 : c.wcur.toNat + 1 ≤ j ∧ j < c.wcur.toNat + 1 + (deltasOn cfg ch ts is).length := ⟨hj, hj'⟩
          have a3 : c.wcur.toNat ≤ j ∧ j < c.wcur.toNat + ((deltasOn cfg ch ts is).length + 1) := by omega
          rw [if_pos a1, if_pos a3]
          have : j - c.wcur.toNat = (j - (c.wcur.toNat + 1)) + 1 := by omega
          rw [this, List.getElem?_cons_succ]
        · have a1 : ¬ (c.wcur.toNat + 1 ≤ j ∧ j < c.wcur.toNat + 1 + (deltasOn cfg ch ts is).length) := by omega
          have a2 : ¬ j = c.wcur.toNat := by omega
          have a3 : ¬ (c.wcur.toNat ≤ j ∧ j < c.wcur.toNat + ((deltasOn cfg ch ts is).length + 1)) := by omega
          rw [if_neg a1, if_neg a2, if_neg a3]
    · rw [deltasOn_cons_other _ _ he] at hl hlen ⊢
      have hcl : i ≠ .clrld ch := fun e => hno (by rw [e]; exact List.mem_cons_self ..)
      rcases chanEffect_other (cfg := cfg) c he hcl with e | ⟨rfl, e⟩ <;> rw [e]
      · obtain ⟨h1, h2, h3, h4⟩ := ih hno' hl hd hlen
        exact ⟨h1, h2, h3, fun h => h4 (fun hm => h (List.mem_cons_of_mem _ hm))⟩
      · obtain ⟨h1, h2, h3, _⟩ := ih (c := c.clearFc) hno' hl hd hlen
        exact ⟨h1, h2, h3, fun h => absurd (List.mem_cons_self ..) h⟩

/-- A leader-shaped delta starts a capture, whatever the channel was doing (R85, R93). -/
theorem chanRun_capture {cfg : Config} {ch : ChanNo} {is : List Instr} {c : Channel} (hw : cfg.wf = true)
    (hno : .clrld ch ∉ is) (hl : oneCapture cfg (deltasOn cfg ch c.lastTs is) = true)
    (hlen : (deltasOn cfg ch c.lastTs is).length < cfg.samples) :
    (chanRun cfg ch.toNat is c).ld = true ∧
    (chanRun cfg ch.toNat is c).wcur.toNat = (deltasOn cfg ch c.lastTs is).length ∧
    (∀ j, (chanRun cfg ch.toNat is c).buf.read j =
      if j < (deltasOn cfg ch c.lastTs is).length then (deltasOn cfg ch c.lastTs is)[j]? else c.buf.read j) ∧
    (.clrfc ch ∉ is → (chanRun cfg ch.toNat is c).fc = c.fc) := by
  induction is generalizing c with
  | nil => simp [deltasOn, stampsOn, deltasFrom, oneCapture] at hl
  | cons i is ih =>
    have hno' : .clrld ch ∉ is := fun h => hno (List.mem_cons_of_mem _ h)
    rw [chanRun]
    rcases edgeOn_or_not ch i with ⟨ts, rfl⟩ | he
    · rw [deltasOn_cons_edge] at hl hlen ⊢
      simp only [oneCapture, Bool.and_eq_true] at hl
      simp only [List.length_cons] at hlen ⊢
      rw [chanEffect_edge, edgeStep_leader hw hl.1]
      have := chanRun_capturing (is := is)
        (c := { c with lastTs := ts, buf := c.buf.write 0 (duration cfg ts c.lastTs), wcur := 1, ld := true })
        hw hno' hl.2 rfl (by simp only [Cursor.toNat_one]; omega)
      simp only [Cursor.toNat_one] at this
      obtain ⟨h1, h2, h3, h4⟩ := this
      refine ⟨h1, by omega, fun j => ?_, fun h => h4 (fun hm => h (List.mem_cons_of_mem _ hm))⟩
      rw [h3 j, Memory.read_write]
      cases j with
      | zero => simp
      | succ j =>
        by_cases hj : j < (deltasOn cfg ch ts is).length
        · have a1 : 1 ≤ j + 1 ∧ j + 1 < 1 + (deltasOn cfg ch ts is).length := by omega
          have a2 : j + 1 < (deltasOn cfg ch ts is).length + 1 := by omega
          rw [if_pos a1, if_pos a2]; simp
        · have a1 : ¬ (1 ≤ j + 1 ∧ j + 1 < 1 + (deltasOn cfg ch ts is).length) := by omega
          have a2 : ¬ j + 1 < (deltasOn cfg ch ts is).length + 1 := by omega
          rw [if_neg a1, if_neg a2]; simp
    · rw [deltasOn_cons_other _ _ he] at hl hlen ⊢
      have hcl : i ≠ .clrld ch := fun e => hno (by rw [e]; exact List.mem_cons_self ..)
      rcases chanEffect_other (cfg := cfg) c he hcl with e | ⟨rfl, e⟩ <;> rw [e]
      · obtain ⟨h1, h2, h3, h4⟩ := ih hno' hl hlen
        exact ⟨h1, h2, h3, fun h => h4 (fun hm => h (List.mem_cons_of_mem _ hm))⟩
      · obtain ⟨h1, h2, h3, _⟩ := ih (c := c.clearFc) hno' hl hlen
        exact ⟨h1, h2, h3, fun h => absurd (List.mem_cons_self ..) h⟩

end Sys2Proof.Machine
end

