-- ==== Sys2Proof/Laws/Step.lean ====
section
/-! SUPPORT. What one step does, event by event, and all that a step can do (R42 to R44, R150). -/

namespace Sys2Proof.Machine

/-! ## Which event comes next -/

/-- The schedule's first event comes next (R44). -/
theorem nextEvent_of_schedule {s : State} {e : Event} {rest : List Event} (h : s.schedule = e :: rest) :
    s.nextEvent = some e := by
  simp [State.nextEvent, h]

/-- After the schedule's last event what is pending comes next (R58). -/
theorem nextEvent_of_drained {s : State} (h : s.schedule = []) : s.nextEvent = s.pendingEvent := by
  simp [State.nextEvent, h]

/-- Nothing is pending exactly when no word waits and no command is outstanding. -/
theorem pendingEvent_eq_none {s : State} : s.pendingEvent = none ↔ s.presented = [] ∧ s.sync = .idle := by
  unfold State.pendingEvent
  cases s.presented <;> cases s.sync <;> simp

/-- All that can come next when the schedule is over. -/
theorem pendingEvent_cases {s : State} {e : Event} (h : s.pendingEvent = some e) :
    (e = .accept ∧ ∃ w ws, s.presented = w :: ws) ∨
    (e = .perform ∧ s.presented = [] ∧ ∃ w, s.sync = .requested w) ∨
    (e = .acknowledge ∧ s.presented = [] ∧ ∃ r, s.sync = .responded r) := by
  unfold State.pendingEvent at h
  cases hp : s.presented <;> cases hy : s.sync <;> simp_all

/-! ## One equation per event -/

theorem step_idle {s : State} (h : s.nextEvent = none) : step s = .next s.advance := by
  simp [step, h]

theorem step_present {s : State} {w : Word} (h : s.nextEvent = some (.present w)) :
    step s = .next (s.advance.presentWord w) := by
  simp [step, h]

theorem step_accept {s : State} (h : s.nextEvent = some .accept) : step s = acceptPresented s.advance := by
  simp [step, h]

theorem step_issue {s : State} {w : Word} (h : s.nextEvent = some (.issue w)) :
    step s = .next (s.advance.issueWord w) := by
  simp [step, h]

theorem step_perform {s : State} (h : s.nextEvent = some .perform) : step s = performRequested s.advance := by
  simp [step, h]

theorem step_acknowledge {s : State} (h : s.nextEvent = some .acknowledge) :
    step s = .next s.advance.acknowledge := by
  simp [step, h]

theorem step_reset {s : State} (h : s.nextEvent = some .reset) : step s = .next s.advance.assertReset := by
  simp [step, h]

/-- Several steps of the machine as the host runs it: one, and then the others. -/
theorem core_run_succ {s t : State} {n : Nat} (h : step s = .next t) :
    Host.Core.run core (n + 1) s = Host.Core.run core n t := by
  have hc : core.step s = .next t := h
  simp [Host.Core.run, hc]

/-! ## Linearization points -/

theorem runWord_ok {s : State} {p : Port} {w : Word} {i : Instr} (h : decodeCmd s.cfg p w = .ok i) :
    runWord p w s = exec i s := by
  simp [runWord, h]

theorem runWord_error {s : State} {p : Port} {w : Word} {code : RejectCode} (h : decodeCmd s.cfg p w = .error code) :
    runWord p w s = .next (s.reject p code) := by
  simp [runWord, h]

/-- All that a word can do at its linearization point. -/
theorem runWord_cases {s t : State} {p : Port} {w : Word} (h : runWord p w s = .next t) :
    (∃ code, decodeCmd s.cfg p w = .error code ∧ t = s.reject p code) ∨
    (∃ i, decodeCmd s.cfg p w = .ok i ∧ exec i s = .next t) := by
  cases hd : decodeCmd s.cfg p w with
  | error code => rw [runWord_error hd] at h; injection h with h; exact .inl ⟨code, rfl, h.symm⟩
  | ok i => rw [runWord_ok hd] at h; exact .inr ⟨i, rfl, h⟩

/-- All that one step can do. -/
theorem step_cases {s t : State} (h : step s = .next t) :
    (s.nextEvent = none ∧ t = s.advance) ∨
    (∃ w, s.nextEvent = some (.present w) ∧ t = s.advance.presentWord w) ∨
    (∃ w, s.nextEvent = some (.issue w) ∧ t = s.advance.issueWord w) ∨
    (s.nextEvent = some .acknowledge ∧ t = s.advance.acknowledge) ∨
    (s.nextEvent = some .reset ∧ t = s.advance.assertReset) ∨
    (s.nextEvent = some .accept ∧ s.presented = [] ∧ t = s.advance) ∨
    (s.nextEvent = some .perform ∧ (∀ w, s.sync ≠ .requested w) ∧ t = s.advance) ∨
    (∃ w ws, s.nextEvent = some .accept ∧ s.presented = w :: ws ∧
      runWord .capture w { s.advance with presented := ws } = .next t) ∨
    (∃ w, s.nextEvent = some .perform ∧ s.sync = .requested w ∧ runWord .consumer w s.advance = .next t) := by
  cases hs : s.nextEvent with
  | none => rw [step_idle hs] at h; injection h with h; exact .inl ⟨rfl, h.symm⟩
  | some e =>
    cases e with
    | present w => rw [step_present hs] at h; injection h with h; exact .inr (.inl ⟨w, rfl, h.symm⟩)
    | issue w => rw [step_issue hs] at h; injection h with h; exact .inr (.inr (.inl ⟨w, rfl, h.symm⟩))
    | acknowledge =>
      rw [step_acknowledge hs] at h; injection h with h; exact .inr (.inr (.inr (.inl ⟨rfl, h.symm⟩)))
    | reset => rw [step_reset hs] at h; injection h with h; exact .inr (.inr (.inr (.inr (.inl ⟨rfl, h.symm⟩))))
    | accept =>
      rw [step_accept hs] at h
      unfold acceptPresented at h
      rw [State.advance_presented] at h
      cases hp : s.presented with
      | nil =>
        rw [hp] at h; injection h with h
        exact .inr (.inr (.inr (.inr (.inr (.inl ⟨rfl, rfl, h.symm⟩)))))
      | cons w ws =>
        rw [hp] at h
        exact .inr (.inr (.inr (.inr (.inr (.inr (.inr (.inl ⟨w, ws, rfl, rfl, h⟩)))))))
    | perform =>
      rw [step_perform hs] at h
      unfold performRequested at h
      rw [State.advance_sync] at h
      cases hy : s.sync with
      | idle =>
        rw [hy] at h; injection h with h
        exact .inr (.inr (.inr (.inr (.inr (.inr (.inl ⟨rfl, by simp, h.symm⟩))))))
      | responded r =>
        rw [hy] at h; injection h with h
        exact .inr (.inr (.inr (.inr (.inr (.inr (.inl ⟨rfl, by simp, h.symm⟩))))))
      | requested w =>
        rw [hy] at h
        exact .inr (.inr (.inr (.inr (.inr (.inr (.inr (.inr ⟨w, rfl, rfl, h⟩)))))))

/-! ## Commands that decoding gives -/

/-- An accepted command has passed the checks of its port and of its operands (R66). -/
theorem decodeCmd_ok {cfg : Config} {p : Port} {w : Word} {i : Instr} (h : decodeCmd cfg p w = .ok i) :
    ∃ o, opcodeOf (opField w) = some o ∧ o.port = p ∧ reservedZero o w = true ∧ i = operands o w ∧
      rangeReject cfg i = none := by
  unfold decodeCmd decodeFields at h
  cases ho : opcodeOf (opField w) with
  | none => rw [ho] at h; simp at h
  | some o =>
    rw [ho] at h
    dsimp only at h
    by_cases hp : o.port = p
    · cases hz : reservedZero o w with
      | false => simp [hp, hz] at h
      | true =>
        simp only [hp, hz, ne_eq, not_true_eq_false, if_false, if_true] at h
        cases hr : rangeReject cfg (operands o w) with
        | some code => rw [hr] at h; simp at h
        | none =>
          rw [hr] at h
          injection h with h
          exact ⟨o, rfl, hp, hz, h.symm, h ▸ hr⟩
    · simp [hp] at h

theorem operands_opcode (o : Opcode) (w : Word) : (operands o w).opcode = o := by cases o <;> rfl

theorem decodeCmd_port {cfg : Config} {p : Port} {w : Word} {i : Instr} (h : decodeCmd cfg p w = .ok i) :
    i.port = p := by
  obtain ⟨o, _, hp, _, rfl, _⟩ := decodeCmd_ok h
  rw [Instr.port, operands_opcode, hp]

/-! ## What a step does to the ports -/

theorem runWord_next (p : Port) (w : Word) (s : State) : ∃ t, runWord p w s = .next t := by
  unfold runWord
  split
  · exact exec_next _ _
  · exact ⟨_, rfl⟩

/-- What no word changes at its linearization point, and that free values are only used up. -/
theorem runWord_keeps {s t : State} {p : Port} {w : Word} (h : runWord p w s = .next t) :
    t.cfg = s.cfg ∧ t.schedule = s.schedule ∧ t.presented = s.presented ∧ t.chans.length = s.chans.length ∧
    s.draws ≤ t.draws := by
  rcases runWord_cases h with ⟨code, _, rfl⟩ | ⟨i, _, hx⟩
  · simp
  · exact exec_keeps hx

/-- Where the response to a word goes (R65). -/
theorem runWord_answers {s t : State} {p : Port} {w : Word} (h : runWord p w s = .next t) :
    (p = .capture ∧ t.sync = s.sync ∧ ∃ r : Response, t.output = some { port := .capture, response := r }) ∨
    (p = .consumer ∧ t.output = s.output ∧ ∃ r : Response, t.sync = .responded r) := by
  rcases runWord_cases h with ⟨code, _, rfl⟩ | ⟨i, hd, hx⟩
  · cases p
    · exact .inl ⟨rfl, rfl, _, rfl⟩
    · exact .inr ⟨rfl, rfl, _, rfl⟩
  · rw [← decodeCmd_port hd]
    rcases exec_answers hx with ⟨hp, hs, r, _, hr⟩ | ⟨hp, hs, r, _, hr⟩
    · exact .inl ⟨hp, hs, r, hr⟩
    · exact .inr ⟨hp, hs, r, hr⟩

/-- Every step answers a next state: nothing stops the machine (R136, R143). -/
theorem step_next (s : State) : ∃ t, step s = .next t := by
  unfold step acceptPresented performRequested
  split
  · exact ⟨_, rfl⟩
  · exact ⟨_, rfl⟩
  · split
    · exact ⟨_, rfl⟩
    · exact runWord_next _ _ _
  · exact ⟨_, rfl⟩
  · split
    · exact runWord_next _ _ _
    · exact ⟨_, rfl⟩
    · exact ⟨_, rfl⟩
  · exact ⟨_, rfl⟩
  · exact ⟨_, rfl⟩

/-- The words that wait on the capture port, after each event (R42, R80, R150). -/
def presentedAfter (s : State) : Option Event → List Word
  | some (.present w) => s.presented ++ [w]
  | some .accept => s.presented.tail
  | some .reset => []
  | none | some (.issue _) | some .perform | some .acknowledge => s.presented

/-- What each event can do to the consumer port's transaction (R42, R150). -/
def SyncMoves (e : Option Event) (x y : Transaction) : Prop :=
  match e with
  | some (.issue w) => if x = .idle then y = .requested w else y = x
  | some .perform => (∀ w, x = .requested w → ∃ r, y = .responded r) ∧ ((∀ w, x ≠ .requested w) → y = x)
  | some .acknowledge => (∀ r, x = .responded r → y = .idle) ∧ ((∀ r, x ≠ .responded r) → y = x)
  | some .reset => y = .idle
  | none | some (.present _) | some .accept => y = x

/-- What a step does to the ports, whatever the event is. -/
theorem step_ports {s t : State} (h : step s = .next t) :
    t.cfg = s.cfg ∧ t.schedule = s.schedule.tail ∧ t.presented = presentedAfter s s.nextEvent ∧
    SyncMoves s.nextEvent s.sync t.sync := by
  rcases step_cases h with ⟨hs, rfl⟩ | ⟨w, hs, rfl⟩ | ⟨w, hs, rfl⟩ | ⟨hs, rfl⟩ | ⟨hs, rfl⟩ | ⟨hs, hp, rfl⟩ |
      ⟨hs, hp, rfl⟩ | ⟨w, ws, hs, hp, hx⟩ | ⟨w, hs, hp, hx⟩ <;> rw [hs]
  · exact ⟨rfl, rfl, rfl, rfl⟩
  · exact ⟨rfl, rfl, rfl, rfl⟩
  · refine ⟨by simp, by simp, by simp [presentedAfter], ?_⟩
    unfold State.issueWord SyncMoves
    cases hy : s.sync <;> simp [hy]
  · refine ⟨by simp, by simp, by simp [presentedAfter], ?_⟩
    unfold State.acknowledge SyncMoves
    cases hy : s.sync <;> simp [hy]
  · exact ⟨rfl, rfl, rfl, rfl⟩
  · exact ⟨rfl, rfl, by simp [presentedAfter, hp], rfl⟩
  · exact ⟨rfl, rfl, rfl, fun w e => absurd e (hp w), fun _ => rfl⟩
  · obtain ⟨h1, h2, h3, _, _⟩ := runWord_keeps hx
    rcases runWord_answers hx with ⟨_, hy, _⟩ | ⟨hy, _⟩
    · exact ⟨h1, h2, by rw [h3]; simp [presentedAfter, hp], hy⟩
    · cases hy
  · obtain ⟨h1, h2, h3, _, _⟩ := runWord_keeps hx
    rcases runWord_answers hx with ⟨hy, _⟩ | ⟨_, _, hy⟩
    · cases hy
    · exact ⟨h1, h2, h3, fun _ _ => hy, fun hn => absurd hp (hn w)⟩

/-- The acknowledge delivers the response that is under way, and nothing else (R42). -/
theorem step_delivers {s t : State} {r : Response} (h : step s = .next t) (he : s.nextEvent = some .acknowledge)
    (hr : s.sync = .responded r) : t.output = some { port := .consumer, response := r } := by
  rw [step_acknowledge he] at h
  injection h with h
  subst h
  simp [State.acknowledge, hr]

end Sys2Proof.Machine
end

