-- ==== Sys2Proof/Tests/Slice0.lean ====
section
/-! SUPPORT. Tests, their expected results from spec/95_test_vectors.md (the vector is named), and for every statement
of Certificates/Slice0/Obligations.lean that has hypotheses a witness that meets them. -/

open Sys2Proof Sys2Proof.Machine

namespace Sys2Proof.Tests

/-! ## Small states -/

/-- The outcome is a next state with the property. -/
def answers (o : Host.Outcome State Fault Refusal) (p : State → Bool) : Bool :=
  match o with
  | .next t => p t
  | .fault _ => false
  | .refused _ => false

/-- The state after reset with one record in the place of channel 0's. -/
def on0 (c : Channel) : State := State.reset.setChan 0 c

/-- The same, with a configuration, some events to come, and the words that wait on the two ports. -/
def onPorts (cfg : Config) (c : Channel) (events : List Event) (sync : Transaction) (words : List Word) : State :=
  { State.resetOf cfg with
    chans := (State.resetOf cfg).chans.set 0 c, schedule := events, sync := sync, presented := words }

/-- A buffer whose first `n` entries are written, by index. -/
def filled (n : Nat) (f : Nat → Tick) : Memory := (List.range n).map fun i => (i, f i)

def capturing (w : Cursor) (last : Tick) : Channel :=
  { lastTs := last, buf := filled w.toNat fun i => if i = 0 then 9000 else 560, wcur := w, ld := true, fc := false }

def complete (last : Tick) : Channel :=
  { lastTs := last, buf := filled 67 fun i => if i = 0 then 9000 else 560, wcur := 0, ld := false, fc := true }

def recapture (w : Cursor) : Channel := { complete 3000 with wcur := w, ld := true }

def fallCfg : Config := { service := .fallthrough 0 1 }

/-- EDGE operations on channel 0 that give these deltas, from a first timestamp on. -/
def edges (last : Tick) : List Tick → List Instr
  | [] => []
  | d :: ds => .edge 0 (last + d) :: edges (last + d) ds

/-- The deltas of a frame whose spaces are 600 and 1700 in turn (S-3). -/
def altFrame : List Tick :=
  (List.range 67).map fun i => if i = 0 then 9000 else if i % 4 = 1 ∧ 5 ≤ i then 1700 else 600

/-! ## WellFormed refuses ill-formed commands -/

theorem test_wellFormed_refuses_absent_channel : (Instr.rdfc 3).wellFormed {} = false := by decide

theorem test_wellFormed_refuses_absent_index : (Instr.rdsamp 0 68).wellFormed {} = false := by decide

theorem test_wellFormed_accepts_last_channel_and_index : (Instr.rdsamp 2 67).wellFormed {} = true := by decide

theorem test_config_wf_refuses :
    ({ leaderHi := 8500 } : Config).wf = false ∧ ({ leaderHi := 65537 } : Config).wf = false ∧
    ({ samples := 69 } : Config).wf = false ∧ ({ samples := 65 } : Config).wf = false ∧
    ({ capacity := 128 } : Config).wf = false ∧ ({ channels := 0 } : Config).wf = false ∧
    ({ channels := 17 } : Config).wf = false ∧ ({ service := .fallthrough 1 1 } : Config).wf = false ∧
    ({ service := .fallthrough 3 1 } : Config).wf = false ∧ ({ service := .fallthrough 0 3 } : Config).wf = false ∧
    ({ tickHz := 0 } : Config).wf = false ∧ ({ tsW := 17 } : Config).wf = false ∧
    ({ nbits := 33, samples := 68 } : Config).wf = false := by decide

/-- The table of R7. -/
theorem test_config_defaults :
    let c : Config := {}
    c.tsW = 16 ∧ c.capacity = 68 ∧ c.samples = 67 ∧ c.leaderLo = 8500 ∧ c.leaderHi = 9500 ∧ c.bitTh = 1500 ∧
    c.nbits = 32 := by decide

/-- R8 admits fewer bits, and then a shorter frame: 2 + 2*(8-1) + 1 = 17 < 18. -/
theorem test_config_wf_depends_on_nbits :
    ({ nbits := 8, samples := 18 } : Config).wf = true ∧ ({ nbits := 8, samples := 17 } : Config).wf = false := by decide

/-- R12, R82: the difference wraps modulo 2^16. -/
theorem test_duration_wraps : duration {} 100 65500 = 136 ∧ duration {} 5 5 = 0 ∧ duration {} 4 5 = 65535 := by decide

/-! ## Decoding: words written out bit by bit from R60 and R76 -/

theorem test_decode_edge :
    decodeCmd {} .capture 0b0001_0010_00000000_0010011100010001#32 = .ok (.edge 2 10001) := by decide

theorem test_decode_rdfc : decodeCmd {} .consumer 0b0010_0001_000000000000000000000000#32 = .ok (.rdfc 1) := by decide

theorem test_decode_rdld : decodeCmd {} .consumer 0b0011_0010_000000000000000000000000#32 = .ok (.rdld 2) := by decide

theorem test_decode_rdsamp :
    decodeCmd {} .consumer 0b0100_0001_01000001_0000000000000000#32 = .ok (.rdsamp 1 65) := by decide

theorem test_decode_decode : decodeCmd {} .consumer 0b0101_0001_000000000000000000000000#32 = .ok (.decode 1) := by decide

theorem test_decode_clrfc : decodeCmd {} .consumer 0b0110_0001_000000000000000000000000#32 = .ok (.clrfc 1) := by decide

theorem test_decode_clrld : decodeCmd {} .consumer 0b0111_0001_000000000000000000000000#32 = .ok (.clrld 1) := by decide

/-- X-1 to X-8. -/
theorem test_rejects_opcode_port :
    decodeCmd {} .consumer 0x00000000#32 = .error .reservedOpcode ∧
    decodeCmd {} .consumer 0x80000000#32 = .error .reservedOpcode ∧
    decodeCmd {} .capture 0xF0000000#32 = .error .reservedOpcode ∧
    decodeCmd {} .capture 0x8F000000#32 = .error .reservedOpcode ∧
    decodeCmd {} .consumer 0x10000D74#32 = .error .wrongPort ∧
    decodeCmd {} .capture 0x20000000#32 = .error .wrongPort ∧
    decodeCmd {} .capture 0x50000000#32 = .error .wrongPort ∧
    decodeCmd {} .capture 0x10010D74#32 = .error .reservedField := by decide

/-- X-9 to X-20. -/
theorem test_rejects_fields_ranges :
    decodeCmd {} .consumer 0x20000001#32 = .error .reservedField ∧
    decodeCmd {} .consumer 0x40000001#32 = .error .reservedField ∧
    decodeCmd {} .consumer 0x70010000#32 = .error .reservedField ∧
    decodeCmd {} .capture 0x1F010000#32 = .error .reservedField ∧
    decodeCmd {} .consumer 0x4F450001#32 = .error .reservedField ∧
    decodeCmd {} .consumer 0x23000000#32 = .error .channelRange ∧
    decodeCmd {} .capture 0x1F000000#32 = .error .channelRange ∧
    decodeCmd {} .consumer 0x44440000#32 = .error .channelRange ∧
    decodeCmd {} .consumer 0x40440000#32 = .error .indexRange ∧
    decodeCmd {} .consumer 0x40FF0000#32 = .error .indexRange ∧
    decodeCmd {} .consumer 0x40430000#32 = .ok (.rdsamp 0 67) ∧
    decodeCmd {} .consumer 0x22000000#32 = .ok (.rdfc 2) := by decide

/-- R69, at both ends of every operand's range. -/
theorem test_assemble_bounds :
    assemble (.edge 15 65535) = some (.command 0x1F00FFFF#32) ∧ assemble (.edge 16 0) = none ∧
    assemble (.edge 0 65536) = none ∧ assemble (.rdsamp 15 255) = some (.command 0x4FFF0000#32) ∧
    assemble (.rdsamp 0 256) = none ∧ assemble (.dispatch 15) = some (.dispatch 15) ∧
    assemble (.dispatch 16) = none := by decide

/-! ## One step of each operation, from the word -/

/-- E-8. -/
theorem test_edge_completes :
    answers (step ((on0 (capturing 66 3000)).withFetchWord 32 0x10000DE8)) (fun t =>
      (t.chan 0).flagState == .complete && (t.chan 0).wcur == 0 && (t.chan 0).lastTs == 3560 &&
      (t.chan 0).buf.read 66 == some 560 && (t.chan 0).buf.read 67 == none) = true := by decide

/-- E-10. -/
theorem test_edge_restarts :
    answers (step ((on0 (complete 3000)).withFetchWord 32 0x10002EE0)) (fun t =>
      (t.chan 0).flagState == .recapture && (t.chan 0).wcur == 1 && (t.chan 0).buf.read 0 == some 9000 &&
      (t.chan 0).buf.read 1 == some 560) = true := by decide

/-- F-4. -/
theorem test_rdfc :
    answers (step ((on0 (recapture 7)).withFetchWord 32 0x20000000)) (fun t =>
      t.sync == .responded { status := 0, data := 1 }) = true := by decide

/-- F-3. -/
theorem test_rdld :
    answers (step ((on0 (complete 3000)).withFetchWord 32 0x30000000)) (fun t =>
      t.sync == .responded { status := 0, data := 0 }) = true := by decide

/-- D-9. -/
theorem test_rdsamp :
    answers (step ((on0 (complete 3000)).withFetchWord 32 0x40000000)) (fun t =>
      t.sync == .responded { status := 0, data := 0x2328 }) = true := by decide

/-- D-12. -/
theorem test_rdsamp_rejected :
    answers (step ((on0 (complete 3000)).withFetchWord 32 0x40440000)) (fun t =>
      t.sync == .responded { status := 5, data := 0 }) = true := by decide

/-- D-3: the space of bit 31 is at index 65. -/
theorem test_decode_last_bit :
    answers (exec (.decode 0) (on0 { complete 0 with buf := filled 67 fun i => if i = 65 then 1690 else 560 })) (fun t =>
      t.sync == .responded { status := 0, data := 0x80000000 }) = true := by decide

/-- D-4 and D-5 in one buffer: 1499 in the even bits, 1500 in the odd ones. -/
theorem test_decode_threshold :
    answers (exec (.decode 0) (on0 { complete 0 with buf := filled 67 fun i => if i % 4 = 1 then 1500 else 1499 })) (fun t =>
      t.sync == .responded { status := 0, data := 0xAAAAAAAA }) = true := by decide

/-- F-4. -/
theorem test_clrfc :
    answers (step ((on0 (recapture 7)).withFetchWord 32 0x60000000)) (fun t =>
      (t.chan 0).flagState == .capturing && (t.chan 0).wcur == 7) = true := by decide

/-- F-4. -/
theorem test_clrld :
    answers (step ((on0 (recapture 7)).withFetchWord 32 0x70000000)) (fun t =>
      (t.chan 0).flagState == .complete && (t.chan 0).wcur == 7) = true := by decide

/-- R58: with no event to come, a presented EDGE is still performed and an outstanding command still answered. -/
theorem test_pending_work_is_done :
    answers (step (onPorts {} (capturing 66 3000) [] .idle [0x10000DE8])) (fun t =>
      (t.chan 0).flagState == .complete && t.presented == []) = true ∧
    answers (step (onPorts {} (complete 0) [] (.responded { status := 0, data := 1 }) [])) (fun t =>
      t.sync == .idle && t.output == some { port := .consumer, response := { status := 0, data := 1 } }) = true := by
  decide

/-! ## Witnesses: command words -/

theorem witness_EncodedCommandDecodesToItself :
    (Instr.rdsamp 2 67).wellFormed {} = true ∧ (Instr.edge 15 65535).wellFormed { channels := 16 } = true := by decide

theorem witness_AcceptedWordIsTheEncodingOfItsCommand :
    decodeCmd {} .capture 0x1200FFFF#32 = .ok (.edge 2 65535) ∧
    decodeCmd {} .consumer 0x42430000#32 = .ok (.rdsamp 2 67) := by decide

/-- One word for each clause: no check passed, then one more at a time, up to all. -/
theorem witness_LowestApplicableCodeIsReported :
    decodeCmd {} .consumer 0x8F450001#32 = .error .reservedOpcode ∧
    decodeCmd {} .capture 0x7F450001#32 = .error .wrongPort ∧
    decodeCmd {} .consumer 0x4F450001#32 = .error .reservedField ∧
    decodeCmd {} .consumer 0x43450000#32 = .error .channelRange ∧
    decodeCmd {} .consumer 0x42440000#32 = .error .indexRange ∧
    decodeCmd {} .consumer 0x42430000#32 = .ok (.rdsamp 2 67) := by decide

/-! ## Witnesses: steps, ports and reset -/

/-- With the event in the schedule, and with the schedule over (R58). -/
theorem witness_StepPerformsTheDecodedOperation :
    (∀ es ∈ [[Event.accept], []],
      let s := onPorts {} (capturing 66 3000) es .idle [0x10000DE8]
      s.nextEvent = some .accept ∧ s.presented = [0x10000DE8] ∧
      decodeCmd s.cfg .capture 0x10000DE8 = .ok (.edge 0 3560)) ∧
    (∀ es ∈ [[Event.perform], []],
      let s := onPorts {} (complete 3000) es (.requested 0x50000000) []
      s.nextEvent = some .perform ∧ s.sync = .requested 0x50000000 ∧
      decodeCmd s.cfg .consumer 0x50000000 = .ok (.decode 0)) := by decide

theorem witness_RejectedWordChangesNothing :
    (let s := onPorts {} (capturing 66 3000) [.accept] .idle [0x10010FB0]
     s.nextEvent = some .accept ∧ s.presented = [0x10010FB0] ∧
     decodeCmd s.cfg .capture 0x10010FB0 = .error .reservedField) ∧
    (let s := onPorts {} (complete 3000) [.perform] (.requested 0x40440000) []
     s.nextEvent = some .perform ∧ s.sync = .requested 0x40440000 ∧
     decodeCmd s.cfg .consumer 0x40440000 = .error .indexRange) := by decide

theorem witness_ResetInputResetsEveryChannel :
    (onPorts {} (recapture 7) [.reset] (.requested 0x50000000) [0x10000DE8]).schedule = [.reset] ∧
    2 < ({} : Config).channels := by decide

theorem witness_ResetStateMeetsTheInvariant :
    ({ channels := 16, capacity := 127, samples := 66, service := .fallthrough 15 0 } : Config).wf = true := by decide

theorem witness_EveryStepKeepsTheInvariant :
    let s := onPorts {} (capturing 66 3000) [.accept] (.requested 0x70000000) [0x10000DE8]
    s.Inv ∧ answers (step s) (fun t => (t.chan 0).flagState == .complete) = true := by decide

theorem witness_WaitingChangesNothing :
    let s := on0 (capturing 40 3000)
    s.schedule = [] ∧ s.presented = [] ∧ s.sync = .idle ∧ 0 < 1 := by decide

theorem witness_PortsMoveWordsAndTouchNothingElse :
    (let s := onPorts {} (complete 0) [.issue 0x20000000] .idle []
     s.schedule = [.issue 0x20000000] ∧ s.sync = .idle) ∧
    (let s := onPorts {} (complete 0) [.issue 0x20000000] (.requested 0x50000000) []
     s.schedule = [.issue 0x20000000] ∧ s.sync ≠ .idle) ∧
    (let s := onPorts {} (complete 0) [.acknowledge] (.responded { status := 0, data := 1 }) []
     s.nextEvent = some .acknowledge ∧ s.sync = .responded { status := 0, data := 1 }) ∧
    (onPorts {} (complete 0) [.present 0x10000DE8] .idle [0x1000000A]).schedule = [.present 0x10000DE8] := by decide

theorem witness_OnlyLinearizationPointsChangeChannels :
    let s := onPorts {} (complete 0) [.acknowledge] (.responded { status := 0, data := 1 }) []
    answers (step s) (fun _ => true) = true ∧ s.chans.length = s.cfg.channels ∧ s.nextEvent ≠ some .accept ∧
    s.nextEvent ≠ some .perform ∧ s.nextEvent ≠ some .reset := by decide

theorem witness_OutstandingCommandIsAnswered :
    let before := [Event.accept, .issue 0x20000000]
    let between := [Event.present 0x10000DE8]
    let s := onPorts {} (complete 0) (before ++ .perform :: between ++ .acknowledge :: []) (.requested 0x50000000) []
    s.sync = .requested 0x50000000 ∧
    (∀ e ∈ before ++ between, e = .accept ∨ (∃ x, e = .present x) ∨ ∃ x, e = .issue x) ∧
    s.schedule = before ++ .perform :: between ++ .acknowledge :: [] :=
  ⟨rfl, by simp, rfl⟩

/-- Outstanding behind an edge and a second issue, with no event that answers it; and about to be issued. -/
theorem witness_EveryIssuedCommandIsAcknowledged :
    (let s := onPorts {} (complete 0) [.accept, .issue 0x20000000] (.requested 0x50000000) [0x10000DE8]
     .reset ∉ s.schedule ∧ s.sync = .requested 0x50000000) ∧
    (let s := onPorts {} (complete 0) [.issue 0x20000000] .idle [0x10000DE8]
     .reset ∉ s.schedule ∧ s.sync = .idle ∧ s.schedule = [.issue 0x20000000]) := by decide

/-- Behind another word, while the consumer has a command outstanding, with no event that accepts it. -/
theorem witness_EveryPresentedEdgeIsPerformed :
    let s := onPorts {} (capturing 65 2440) [.perform, .acknowledge] (.requested 0x50000000) [0x10000BB8, 0x10000DE8]
    .reset ∉ s.schedule ∧ s.presented = [0x10000BB8] ++ 0x10000DE8 :: [] ∧
    decodeCmd s.cfg .capture 0x10000DE8 = .ok (.edge 0 3560) := by decide

theorem witness_StepsDoNotDependOnTheClocks :
    answers (step (onPorts {} (capturing 66 3000) [.accept] .idle [0x10000DE8]))
      (fun t => (t.chan 0).fc) = true := by decide

theorem witness_EveryLinearizationIsARun :
    (on0 (capturing 66 3000)).sync = .idle ∧ (on0 (capturing 66 3000)).presented = [] := by decide

/-- R42, R43, R80: the events of an EDGE and of an RDFC, with their words from R76. -/
theorem test_linearize :
    linearize [.edge 0 3560, .rdfc 0] =
      [.present 0x10000DE8, .accept, .issue 0x20000000, .perform, .acknowledge] := by decide

/-! ## Witnesses: EDGE -/

/-- For a leader, a stored sample, a completion, a full buffer and an ignored edge. -/
theorem witness_EdgeRunsTheFiveSteps :
    (∀ c ∈ [capturing 0 3000, capturing 66 3000, capturing 68 3000, complete 3000],
      (on0 c).cfg.wf = true ∧ (on0 c).Has 0 c ∧ notSource (on0 c).cfg 0 = true) ∧
    (12000 + 65536 - 3000) % 2 ^ ({} : Config).tsW = 9000 ∧ (3560 + 65536 - 3000) % 2 ^ ({} : Config).tsW = 560 := by decide

theorem witness_EdgeMakesTheTransitionsOfR91 :
    (∀ c ∈ [capturing 65 3000, capturing 66 3000, complete 3000, recapture 66],
      (on0 c).cfg.wf = true ∧ (on0 c).Has 0 c ∧ (on0 c).cfg.service = .signaledOnly ∧ c.wcur.toNat < 67) ∧
    leaderShaped {} (duration {} 12000 3000) = true ∧ leaderShaped {} (duration {} 3560 3000) = false ∧
    (capturing 65 3000).wcur.toNat + 2 ≤ 67 ∧ (capturing 66 3000).wcur.toNat + 1 = 67 ∧ (complete 3000).ld = false := by
  decide

/-- With a leader-shaped delta, and with one at each bound. -/
theorem witness_LeaderWindowDecidesWhatStartsACapture :
    (∀ c ∈ [capturing 20 1000, complete 1000, recapture 66],
      (on0 c).cfg.wf = true ∧ (on0 c).Has 0 c ∧ notSource (on0 c).cfg 0 = true ∧ c.wcur.toNat < 67) ∧
    (9501 + 65536 - 1000) % 2 ^ ({} : Config).tsW = 8501 ∧ (9500 + 65536 - 1000) % 2 ^ ({} : Config).tsW = ({} : Config).leaderLo ∧
    (10500 + 65536 - 1000) % 2 ^ ({} : Config).tsW = ({} : Config).leaderHi := by decide

theorem witness_StoredDeltaIsTheGapModuloTheTimestampRange :
    let s := on0 (capturing 66 65530)
    s.cfg.wf = true ∧ s.Has 0 (capturing 66 65530) ∧ notSource s.cfg 0 = true ∧ (capturing 66 65530).ld = true ∧
    (capturing 66 65530).wcur.toNat < s.cfg.samples := by decide

/-- On the source of the fallthrough, and on the other channels. -/
theorem witness_FallthroughServicesTheSecondChannel (ch : ChanNo) (ts : Tick) (h : ch.toNat < 3) :
    ∃ s s' t1 : State, s.cfg.wf = true ∧ s.chans.length = s.cfg.channels ∧
      s.cfg.service = .fallthrough (0 : ChanNo).toNat (1 : ChanNo).toNat ∧
      s' = { s with cfg := { s.cfg with service := .signaledOnly } } ∧ ch.toNat < s.cfg.channels ∧
      exec (.edge ch ts) s' = .next t1 := by
  obtain ⟨t1, h1⟩ := exec_next (.edge ch ts) { State.resetOf fallCfg with cfg := { fallCfg with service := .signaledOnly } }
  exact ⟨State.resetOf fallCfg, _, t1, by decide, by decide, rfl, rfl, h, h1⟩

theorem witness_EdgeLeavesEverythingElseAlone :
    (onPorts fallCfg (capturing 20 4000) [] .idle []).cfg.wf = true ∧
    (onPorts fallCfg (capturing 20 4000) [] .idle []).Has 0 (capturing 20 4000) := by decide

theorem witness_FirstEdgeMeasuresFromTheResetTimestamp :
    let cfg : Config := { lastTsReset := [0, 0, 65530] }
    cfg.wf = true ∧ (2 : ChanNo).toNat < cfg.channels ∧ notSource cfg 2 = true ∧
    leaderShaped cfg (duration cfg 9000 (cfg.lastTsReset.getD 2 0)) = true ∧
    leaderShaped cfg (duration cfg 500 (cfg.lastTsReset.getD 2 0)) = false := by decide

/-! ## Witnesses: consumer operations -/

/-- For RdfcAnswersFrameComplete, RdldAnswersLeaderDetected, DecodeAnswersTheSpaceBits,
DecodeDrawsAFreeValueForEachUnwrittenSpace, ClrfcClearsFrameComplete,
ClrldClearsLeaderDetected and ClearsMakeTheTransitionsOfR115, in each of the four flag states. -/
theorem witness_OperationsOnAPresentChannel :
    (∀ c ∈ [Channel.reset 0, capturing 7 0, complete 0, recapture 7], (on0 c).Has 0 c) ∧
    (Channel.reset 0).flagState = .idle ∧ (capturing 7 0).flagState = .capturing ∧
    (complete 0).flagState = .complete ∧ (recapture 7).flagState = .recapture := by decide

/-- The clause of DecodeAnswersTheSpaceBits on bits at or above `NBITS`, at the first such bit of a configuration that
has one. -/
theorem witness_DecodeAnswersTheSpaceBits_aboveNbits :
    let s := onPorts { nbits := 31 } (complete 0) [] .idle []
    s.cfg.wf = true ∧ s.Has 0 (complete 0) ∧ s.cfg.nbits ≤ 31 ∧ 31 < 32 ∧
    answers (exec (.decode 0) s) (fun t => t.sync == .responded { status := 0, data := 0 }) = true := by decide

theorem witness_RdsampAnswersTheSample :
    let s := on0 (complete 0)
    s.Has 0 (complete 0) ∧ (67 : BitVec 8).toNat < s.cfg.capacity ∧
    (complete 0).buf.read 66 = some 560 ∧ (complete 0).buf.read 67 = none := by decide

theorem witness_OperandsOutOfRangeAreRejected :
    State.reset.cfg.channels ≤ (3 : ChanNo).toNat ∧ (Instr.rdfc 3).port = .consumer ∧
    (2 : ChanNo).toNat < State.reset.cfg.channels ∧ State.reset.cfg.capacity ≤ (68 : BitVec 8).toNat := by decide

theorem witness_DecodeDependsOnTheSpacesAlone :
    let c : Channel := { complete 0 with buf := [(0, 9000), (65, 1690)] }
    let c' : Channel := { capturing 1 7 with buf := [(64, 1), (65, 1690), (66, 560)] }
    (on0 c).Has 0 c ∧ (on0 c').Has 0 c' ∧ (on0 c).cfg.bitTh = (on0 c').cfg.bitTh ∧
    (on0 c).cfg.nbits = (on0 c').cfg.nbits ∧ (on0 c).draws = (on0 c').draws ∧
    (∀ b, b < (on0 c).cfg.nbits → c.buf.read (3 + 2 * b) = c'.buf.read (3 + 2 * b)) ∧
    (∃ t, exec (.decode 0) (on0 c) = .next t) ∧ ∃ t, exec (.decode 0) (on0 c') = .next t :=
  ⟨by decide, by decide, rfl, rfl, rfl, by decide, exec_next _ _, exec_next _ _⟩

/-- For the first and the last bit. -/
theorem witness_DecodeAgreesWithSampleReads (b : Nat) (hb : b = 0 ∨ b = 31) :
    ∃ (s u t t' : State) (c : Channel) (is : List Instr) (x : Tick) (v r : Word),
      s.cfg.wf = true ∧ s.Has 0 c ∧ notTarget s.cfg 0 = true ∧ is ≠ [] ∧ stampsOn 0 is = [] ∧
      runInstrs is s = .next u ∧ b < s.cfg.nbits ∧ c.buf.read (3 + 2 * b) = some x ∧
      exec (.rdsamp 0 (BitVec.ofNat 8 (3 + 2 * b))) u = .next t ∧ t.sync = .responded { status := 0, data := r } ∧
      exec (.decode 0) s = .next t' ∧ t'.sync = .responded { status := 0, data := v } := by
  have hd : exec (.decode 0) (on0 (complete 0)) = .next _ := exec_decode (by decide)
  rcases hb with rfl | rfl
  · exact ⟨on0 (complete 0), _, _, _, complete 0, [.rdfc 0], 560, _, _, by decide, by decide, rfl, by decide, rfl, rfl,
      by decide, by decide, exec_rdsamp (by decide) (by decide), rfl, hd, rfl⟩
  · exact ⟨on0 (complete 0), _, _, _, complete 0, [.rdfc 0], 560, _, _, by decide, by decide, rfl, by decide, rfl, rfl,
      by decide, by decide, exec_rdsamp (by decide) (by decide), rfl, hd, rfl⟩

theorem witness_ReadsHaveNoEffectAndClearsAreIdempotent :
    (∃ t, exec (.rdsamp 0 67) (on0 (recapture 7)) = .next t) ∧ ∃ t, exec (.clrld 0) (on0 (recapture 7)) = .next t :=
  ⟨exec_next _ _, exec_next _ _⟩

theorem witness_EntriesPastTheFrameAreNeverWritten :
    (on0 (complete 0)).Inv ∧ (on0 (complete 0)).Has 0 (complete 0) ∧
    (on0 (complete 0)).cfg.samples ≤ (67 : BitVec 8).toNat ∧
    (67 : BitVec 8).toNat < (on0 (complete 0)).cfg.capacity := by decide

/-! ## Witnesses: who writes what -/

/-- By CLRFC, and by reset. -/
theorem witness_OnlyClrfcOrResetClearsFrameComplete :
    (let s := onPorts {} (complete 0) [.perform] (.requested 0x60000000) []
     s.chans[0]? = some (complete 0) ∧ (complete 0).fc = true ∧
     answers (step s) (fun t => (t.chans[0]?).any fun c => !c.fc) = true) ∧
    (let s := onPorts {} (complete 0) [.reset] .idle []
     s.chans[0]? = some (complete 0) ∧
     answers (step s) (fun t => (t.chans[0]?).any fun c => !c.fc) = true) := by decide

/-- By an EDGE, and by reset. -/
theorem witness_OnlyEdgeOrResetWritesTimestampBufferCursor :
    (let s := onPorts {} (capturing 5 2000) [.accept] .idle [0x10000A00]
     s.chans[0]? = some (capturing 5 2000) ∧
     answers (step s) (fun t => (t.chans[0]?).any fun c => c.lastTs != 2000 && c.wcur != 5) = true) ∧
    (let s := onPorts {} (capturing 5 2000) [.reset] .idle []
     answers (step s) (fun t => (t.chans[0]?).any fun c => c.buf != (capturing 5 2000).buf) = true) := by decide

/-- `ld` set by a leader, `fc` set by a completion, and `ld` cleared by a completion, by CLRLD and by reset. -/
theorem witness_WhoSetsAndClearsTheFlags :
    (let s := onPorts {} (complete 3000) [.accept] .idle [0x10002EE0]
     s.cfg.wf = true ∧ answers (step s) (fun t => (t.chans[0]?).any fun c => c.ld) = true) ∧
    (let s := onPorts {} (capturing 66 3000) [.accept] .idle [0x10000DE8]
     answers (step s) (fun t => (t.chans[0]?).any fun c => c.fc && !c.ld) = true) ∧
    (let s := onPorts {} (capturing 66 3000) [.perform] (.requested 0x70000000) []
     answers (step s) (fun t => (t.chans[0]?).any fun c => !c.ld) = true) ∧
    (let s := onPorts {} (capturing 66 3000) [.reset] .idle []
     answers (step s) (fun t => (t.chans[0]?).any fun c => !c.ld) = true) := by decide

/-- One move of each line of the statement: by reset, by an EDGE, by CLRFC and by CLRLD. -/
theorem witness_FlagStateMovesOnlyAlongTheTransitions :
    let moves := fun (c : Channel) (e : Event) (sync : Transaction) (words : List Word) =>
      (onPorts {} c [e] sync words).cfg.wf = true ∧ c.wcur.toNat < 67 ∧
      (onPorts {} c [e] sync words).chans[0]? = some c ∧
      answers (step (onPorts {} c [e] sync words)) (fun t =>
        (t.chans[0]?).any fun c' => c'.flagState != c.flagState) = true
    moves (recapture 66) .reset .idle [] ∧ moves (capturing 66 3000) .accept .idle [0x10000DE8] ∧
    moves (recapture 66) .perform (.requested 0x60000000) [] ∧
    moves (recapture 66) .perform (.requested 0x70000000) [] := by decide

theorem witness_ConsumerNeverTouchesTimestampOrCursor :
    (Instr.clrld 0).port = .consumer ∧ ∃ t, exec (.clrld 0) (on0 (recapture 7)) = .next t :=
  ⟨rfl, exec_next _ _⟩

/-- For a consumer operation under a fallthrough, and for an EDGE that is no source of one. -/
theorem witness_ChannelsAreIndependent :
    (Instr.decode 0).chan.toNat ≠ 1 ∧ (Instr.decode 0).port = .consumer ∧
    (∃ t, exec (.decode 0) (State.resetOf fallCfg) = .next t) ∧
    (Instr.edge 1 700).chan.toNat ≠ 0 ∧ notSource fallCfg (Instr.edge 1 700).chan.toNat = true ∧
    ∃ t, exec (.edge 1 700) (State.resetOf fallCfg) = .next t :=
  ⟨by decide, rfl, exec_next _ _, by decide, rfl, exec_next _ _⟩

theorem witness_FreeValuesAreNeverReused :
    (∃ t, step State.reset = .next t) ∧
    (State.resetOf fallCfg).cfg.service = .fallthrough (0 : ChanNo).toNat (1 : ChanNo).toNat ∧
    (0 : ChanNo).toNat < (State.resetOf fallCfg).cfg.channels ∧
    (1 : ChanNo).toNat < (State.resetOf fallCfg).chans.length ∧
    (on0 (complete 0)).Has 0 (complete 0) ∧ (67 : BitVec 8).toNat < (on0 (complete 0)).cfg.capacity ∧
    (complete 0).buf.read 66 ≠ none ∧ (complete 0).buf.read 67 = none ∧ (Channel.reset 0).buf.read 65 = none :=
  ⟨⟨_, rfl⟩, rfl, by decide, by decide, by decide, by decide, by decide, by decide, rfl⟩

/-! ## Witnesses: sequences of operations -/

theorem witness_ClearedFlagReadsZero :
    (on0 (recapture 7)).Has 0 (recapture 7) ∧ notTarget (on0 (recapture 7)).cfg 0 = true ∧
    stampsOn 0 [.edge 1 700, .decode 0] = [] := by decide

theorem witness_EdgesOnDifferentChannelsCommute :
    State.reset.cfg.service = .signaledOnly ∧ (0 : ChanNo) ≠ 2 ∧ (0 : ChanNo).toNat < State.reset.cfg.channels ∧
    (2 : ChanNo).toNat < State.reset.cfg.channels := by decide

/-- The frame of S-3, with consumer operations before its last edge. -/
theorem witness_FrameDecodesToTheValueItSpells :
    let s := on0 (recapture 7)
    let is := edges 3000 (altFrame.take 66) ++ [.rdfc 0, .clrfc 0, .decode 0]
    let ts : Tick := 3000 + 9000 + 16 * 1700 + 50 * 600
    let ds := deltasOn {} 0 (recapture 7).lastTs (is ++ [.edge 0 ts])
    s.cfg.wf = true ∧ s.Has 0 (recapture 7) ∧ notTarget s.cfg 0 = true ∧ .clrld 0 ∉ is ∧
    ds.length = s.cfg.samples ∧ oneCapture s.cfg ds = true ∧
    ∀ b, b < 32 → ds[3 + 2 * b]? = some (if b % 2 = 1 then 1700 else 600) := by decide

/-- The last hypothesis, on the value: these deltas spell `0xAAAAAAAA`. -/
theorem witness_FrameDecodesToTheValueItSpells_value :
    DecodesDeltas {} (deltasOn {} 0 (recapture 7).lastTs
      ((edges 3000 (altFrame.take 66) ++ [.rdfc 0, .clrfc 0, .decode 0]) ++
        [.edge 0 (3000 + 9000 + 16 * 1700 + 50 * 600)])) 0xAAAAAAAA := by
  intro b hb
  refine ⟨fun _ d hd => ?_, fun h => absurd hb (Nat.not_lt.2 h)⟩
  rw [witness_FrameDecodesToTheValueItSpells.2.2.2.2.2.2 b hb] at hd
  injection hd with hd
  subst hd
  revert b
  decide

theorem witness_LeaderRestartsTheCapture :
    let is := edges 3000 [9000, 4500, 560]
    let s := on0 (capturing 20 3000)
    let ds := deltasOn {} 0 (capturing 20 3000).lastTs is
    s.cfg.wf = true ∧ s.Has 0 (capturing 20 3000) ∧ notTarget s.cfg 0 = true ∧ .clrld 0 ∉ is ∧ .clrfc 0 ∉ is ∧
    oneCapture s.cfg ds = true ∧ ds.length < s.cfg.samples := by decide

/-- S-5: 40 samples, then the consumer polls; from reset, and from IDLE with a cursor that a CLRLD left at 30 (F-2). -/
theorem witness_TooFewSamplesNeverComplete :
    let is := edges 0 (9000 :: List.replicate 39 560) ++ [.rdfc 0, .clrld 0, .rdfc 0]
    ∀ c ∈ [Channel.reset 0, { capturing 30 0 with ld := false }],
      let s := on0 c
      s.cfg.wf = true ∧ s.Has 0 c ∧ notTarget s.cfg 0 = true ∧ c.fc = false ∧
      c.wcur.toNat < s.cfg.samples ∧ c.captured + (stampsOn 0 is).length < s.cfg.samples := by decide

/-- S-7: a leader and 100 more deltas. -/
theorem witness_OversizedTraceCompletesAtItsLastSample :
    let is := edges 0 (9000 :: List.replicate 100 700)
    let s := on0 (Channel.reset 0)
    let ds := deltasOn {} 0 (Channel.reset 0).lastTs is
    s.cfg.wf = true ∧ s.Has 0 (Channel.reset 0) ∧ notTarget s.cfg 0 = true ∧ .clrld 0 ∉ is ∧ .clrfc 0 ∉ is ∧
    oneCapture s.cfg ds = true ∧ s.cfg.samples ≤ ds.length := by decide

theorem witness_CompletedFrameStaysUntilTheNextLeader :
    let is := edges 0 (altFrame.take 66)
    let ts : Tick := 9000 + 16 * 1700 + 50 * 600
    let js := edges ts [560, 40000] ++ [.clrld 0, .rdfc 0]
    let s := on0 (Channel.reset 0)
    let ds := deltasOn {} 0 (Channel.reset 0).lastTs (is ++ [.edge 0 ts])
    s.cfg.wf = true ∧ s.Has 0 (Channel.reset 0) ∧ notTarget s.cfg 0 = true ∧ .clrld 0 ∉ is ∧
    ds.length = s.cfg.samples ∧ oneCapture s.cfg ds = true ∧ noLeader s.cfg (deltasOn {} 0 ts js) = true ∧
    .clrfc 0 ∉ js := by decide

/-- With 4 samples of the new capture, and with 66. -/
theorem witness_LeaderBeforeDecodeMixesTwoFrames :
    let s := on0 (complete 3000)
    s.cfg.wf = true ∧ s.Has 0 (complete 3000) ∧ notTarget s.cfg 0 = true ∧ (complete 3000).fc = true ∧
    (∀ i, i < s.cfg.samples → ((complete 3000).buf.read i).isSome = true) ∧
    ∀ is ∈ [edges 3000 (altFrame.take 4), edges 3000 (altFrame.take 66)],
      .clrld 0 ∉ is ∧ .clrfc 0 ∉ is ∧ oneCapture s.cfg (deltasOn {} 0 (complete 3000).lastTs is) = true ∧
      4 ≤ (deltasOn {} 0 (complete 3000).lastTs is).length ∧
      (deltasOn {} 0 (complete 3000).lastTs is).length < s.cfg.samples := by decide

theorem witness_CompletionInsideADispatchIsLost :
    let s := on0 (complete 3000)
    let gap := edges 3000 altFrame
    s.cfg.wf = true ∧ s.Has 0 (complete 3000) ∧ notTarget s.cfg 0 = true ∧ onlyEdges gap = true ∧
    (complete 3000).fc = true ∧ (∀ i, i < s.cfg.samples → ((complete 3000).buf.read i).isSome = true) ∧
    oneCapture s.cfg (deltasOn {} 0 (complete 3000).lastTs gap) = true ∧
    (deltasOn {} 0 (complete 3000).lastTs gap).length = s.cfg.samples := by decide

/-- F-9: the leader comes between CLRFC and CLRLD; the rest of the frame follows the dispatch. From a completion, and
from COMPLETE with a cursor that a CLRLD in RECAPTURE left (F-4). -/
theorem witness_DispatchAbortsACaptureThatBeganInsideIt :
    let gap3 := edges 3000 [9000]
    let js := edges 12000 (altFrame.drop 1)
    ∀ c ∈ [complete 3000, { complete 3000 with wcur := 7 }],
      let s := on0 c
      s.cfg.wf = true ∧ s.Has 0 c ∧ notTarget s.cfg 0 = true ∧ onlyEdges ([] ++ [] ++ gap3) = true ∧
      onlyEdges js = true ∧ c.fc = true ∧ c.ld = false ∧ c.wcur.toNat < s.cfg.samples ∧
      (deltasOn {} 0 c.lastTs ([] ++ [] ++ gap3)).any (leaderShaped s.cfg) = true ∧
      (stampsOn 0 ([] ++ [] ++ gap3)).length < s.cfg.samples ∧ noLeader s.cfg (deltasOn {} 0 12000 js) = true := by
  decide

/-- A complete frame with a stray edge in a gap, and a channel with `fc` clear. -/
theorem witness_UndisturbedDispatchForwardsTheFrame :
    let s := on0 (complete 3000)
    let gap := edges 3000 [560]
    s.cfg.wf = true ∧ s.Has 0 (complete 3000) ∧ notTarget s.cfg 0 = true ∧ onlyEdges (gap ++ [] ++ []) = true ∧
    (complete 3000).flagState = .complete ∧ (complete 3000).wcur.toNat < s.cfg.samples ∧
    noLeader s.cfg (deltasOn {} 0 (complete 3000).lastTs (gap ++ [] ++ [])) = true ∧
    (on0 (capturing 7 0)).Has 0 (capturing 7 0) ∧ (capturing 7 0).fc = false := by decide

end Sys2Proof.Tests
end

section
/-! PROOFS. The scope of the model (00_scope.md): what no step depends on (R9, R17, R40), and the supply of free
values (R14, R90, R169). -/

namespace Sys2Proof.Machine

/-! ## What a read depends on -/

/-- A buffer read depends on the channel's buffer and on the supply of free values, and on nothing else of the state. -/
theorem State.bufRead_congr {s u : State} {ch : Nat} (i : Nat) (hc : u.chan ch = s.chan ch) (hd : u.draws = s.draws) :
    u.bufRead ch i = ((s.bufRead ch i).1, { u with draws := (s.bufRead ch i).2.draws }) := by
  unfold State.bufRead
  rw [hc]
  split
  · rw [← hd]
  · simp [State.draw16, hd]

/-- So does DECODE's loop, which also reads the space threshold. -/
theorem State.mapBits_congr {s u : State} {ch : Nat} (n : Nat) (hc : u.chan ch = s.chan ch) (hd : u.draws = s.draws)
    (hb : u.cfg.bitTh = s.cfg.bitTh) :
    u.mapBits ch n = ((s.mapBits ch n).1, { u with draws := (s.mapBits ch n).2.draws }) := by
  induction n with
  | zero => simp [State.mapBits, ← hd]
  | succ b ih =>
    have hread := State.bufRead_congr (s := (s.mapBits ch b).2) (u := (u.mapBits ch b).2) (ch := ch) (spaceIndex b)
      (by rw [State.mapBits_chan, State.mapBits_chan, hc]) (by rw [ih])
    rw [State.mapBits_succ, State.mapBits_succ, hread, ih]
    simp only [bitOf, hb]

/-! ## Changes of the state that an operation does not see -/

/-- A change of the state that commutes with rejecting an operation and with its effect commutes with the operation. -/
theorem exec_of_effect {f : State → State} {s t : State} {i : Instr} (hr : rangeReject (f s).cfg i = rangeReject s.cfg i)
    (hrej : ∀ code, (f s).reject i.port code = f (s.reject i.port code)) (heff : effect i (f s) = f (effect i s))
    (h : exec i s = .next t) : exec i (f s) = .next (f t) := by
  rcases exec_cases h with ⟨code, hc, rfl⟩ | ⟨hc, rfl⟩
  · rw [exec_reject (hr.trans hc), hrej]
  · rw [exec_eq_accepted, State.accepted_of_none (hr.trans hc), heff]

/-- An EDGE on a channel services that channel alone, or starts a fallthrough from it (R90). -/
theorem notSource_or_fallthrough (cfg : Config) (ch : Nat) :
    notSource cfg ch = true ∨ ∃ b, cfg.service = .fallthrough ch b := by
  unfold notSource
  cases cfg.service with
  | signaledOnly => exact .inl rfl
  | fallthrough a b =>
    by_cases h : a = ch
    · exact .inr ⟨b, by rw [h]⟩
    · exact .inl (by simpa using h)

/-! ## The tick rate and the clocks (R9, R40) -/

/-- The state with other values of `TICK_HZ`, `CLK_CAP` and `CLK_CON`. -/
def State.withClocks (hz cap con : Nat) (s : State) : State :=
  { s with cfg := { s.cfg with tickHz := hz, clkCap := cap, clkCon := con } }

section
variable (hz cap con : Nat)

theorem State.answer_withClocks (s : State) (p : Port) (r : Response) :
    (s.withClocks hz cap con).answer p r = (s.answer p r).withClocks hz cap con := by
  cases p <;> rfl

theorem State.edgeBody_withClocks (s : State) (ch : Nat) (ts : Tick) :
    (s.withClocks hz cap con).edgeBody ch ts = (s.edgeBody ch ts).withClocks hz cap con := by
  rcases notSource_or_fallthrough s.cfg ch with h | ⟨b, h⟩
  · rw [State.edgeBody_notSource h, State.edgeBody_notSource (s := s.withClocks hz cap con) h]
    rfl
  · rw [State.edgeBody_fallthrough h, State.edgeBody_fallthrough (s := s.withClocks hz cap con) h]
    rfl

/-- No operation reads the tick rate or a clock. -/
theorem effect_withClocks (i : Instr) (s : State) :
    effect i (s.withClocks hz cap con) = (effect i s).withClocks hz cap con := by
  cases i with
  | edge ch ts =>
    dsimp only [effect]
    rw [State.edgeBody_withClocks]
    rfl
  | rdsamp ch idx =>
    dsimp only [effect]
    rw [State.bufRead_congr (s := s) (u := s.withClocks hz cap con) idx.toNat rfl rfl, State.bufRead_state s]
    rfl
  | decode ch =>
    dsimp only [effect]
    rw [State.mapBits_congr (s := s) (u := s.withClocks hz cap con) _ rfl rfl rfl,
      State.mapBits_state s ch.toNat s.cfg.nbits]
    rfl
  | rdfc ch => rfl
  | rdld ch => rfl
  | clrfc ch => rfl
  | clrld ch => rfl

variable {hz cap con}

theorem exec_withClocks {s t : State} {i : Instr} (h : exec i s = .next t) :
    exec i (s.withClocks hz cap con) = .next (t.withClocks hz cap con) :=
  exec_of_effect (f := State.withClocks hz cap con) rfl (fun _ => State.answer_withClocks ..)
    (effect_withClocks hz cap con i s) h

theorem runWord_withClocks {s t : State} {p : Port} {w : Word} (h : runWord p w s = .next t) :
    runWord p w (s.withClocks hz cap con) = .next (t.withClocks hz cap con) := by
  have hd : decodeCmd (s.withClocks hz cap con).cfg p w = decodeCmd s.cfg p w := rfl
  rcases runWord_cases h with ⟨code, hc, rfl⟩ | ⟨i, hi, hx⟩
  · rw [runWord_error (hd.trans hc)]
    exact congrArg _ (State.answer_withClocks ..)
  · rw [runWord_ok (hd.trans hi), exec_withClocks hx]

/-! The moves of the ports do not read the three values. -/

theorem State.issueWord_withClocks (s : State) (w : Word) :
    (s.withClocks hz cap con).issueWord w = (s.issueWord w).withClocks hz cap con := by
  obtain ⟨cfg, chans, sync, presented, schedule, output, draws⟩ := s
  cases sync <;> rfl

theorem State.acknowledge_withClocks (s : State) :
    (s.withClocks hz cap con).acknowledge = s.acknowledge.withClocks hz cap con := by
  obtain ⟨cfg, chans, sync, presented, schedule, output, draws⟩ := s
  cases sync <;> rfl

theorem acceptPresented_withClocks {s t : State} (h : acceptPresented s = .next t) :
    acceptPresented (s.withClocks hz cap con) = .next (t.withClocks hz cap con) := by
  obtain ⟨cfg, chans, sync, presented, schedule, output, draws⟩ := s
  cases presented with
  | nil => injection h with h; rw [← h]; rfl
  | cons w ws => exact runWord_withClocks h

theorem performRequested_withClocks {s t : State} (h : performRequested s = .next t) :
    performRequested (s.withClocks hz cap con) = .next (t.withClocks hz cap con) := by
  obtain ⟨cfg, chans, sync, presented, schedule, output, draws⟩ := s
  cases sync with
  | requested w => exact runWord_withClocks h
  | idle => injection h with h; rw [← h]; rfl
  | responded r => injection h with h; rw [← h]; rfl

/-- With other values of the three, a step answers the same next state but for them. -/
theorem step_withClocks {s t : State} (h : step s = .next t) :
    step (s.withClocks hz cap con) = .next (t.withClocks hz cap con) := by
  have he : (s.withClocks hz cap con).nextEvent = s.nextEvent := rfl
  cases hs : s.nextEvent with
  | none =>
    rw [step_idle hs] at h; injection h with h
    rw [step_idle (he.trans hs), ← h]; rfl
  | some e =>
    cases e with
    | present w =>
      rw [step_present hs] at h; injection h with h
      rw [step_present (he.trans hs), ← h]; rfl
    | issue w =>
      rw [step_issue hs] at h; injection h with h
      rw [step_issue (he.trans hs), ← h, ← State.issueWord_withClocks]; rfl
    | acknowledge =>
      rw [step_acknowledge hs] at h; injection h with h
      rw [step_acknowledge (he.trans hs), ← h, ← State.acknowledge_withClocks]; rfl
    | reset =>
      rw [step_reset hs] at h; injection h with h
      rw [step_reset (he.trans hs), ← h]; rfl
    | accept =>
      rw [step_accept hs] at h
      rw [step_accept (he.trans hs)]
      exact acceptPresented_withClocks h
    | perform =>
      rw [step_perform hs] at h
      rw [step_perform (he.trans hs)]
      exact performRequested_withClocks h

end

/-- Settles O19: every effect, every reject and every move of the ports commutes with a change of the three values. -/
theorem stepsDoNotDependOnTheClocks : Obligations.StepsDoNotDependOnTheClocks :=
  fun _ _ _ _ _ h => step_withClocks h

/-! ## Another channel's record (R17) -/

theorem State.setChan_comm {s : State} {ch k : Nat} (h : ch ≠ k) (c c' : Channel) :
    (s.setChan k c).setChan ch c' = (s.setChan ch c').setChan k c := by
  simp only [State.setChan, List.set_comm _ _ h.symm]

theorem State.answer_setChan (s : State) (k : Nat) (c : Channel) (p : Port) (r : Response) :
    (s.setChan k c).answer p r = (s.answer p r).setChan k c := by
  cases p <;> rfl

/-- An operation at which no fallthrough starts neither reads nor writes the record of a channel it does not name. -/
theorem effect_setChan {s : State} {i : Instr} {k : Nat} (c : Channel) (hk : i.chan.toNat ≠ k)
    (hf : i.port = .consumer ∨ notSource s.cfg i.chan.toNat = true) :
    effect i (s.setChan k c) = (effect i s).setChan k c := by
  have hch : (s.setChan k c).chan i.chan.toNat = s.chan i.chan.toNat := State.chan_setChan_other hk.symm
  cases i <;> dsimp only [Instr.chan, effect] at hk hf hch ⊢
  case edge ch ts =>
    have hn : notSource s.cfg ch.toNat = true := hf.resolve_left nofun
    rw [State.edgeBody_notSource hn, State.edgeBody_notSource (s := s.setChan k c) hn]
    unfold State.edgeStepOn
    rw [hch, State.setChan_cfg, State.setChan_comm hk]
    rfl
  case rdsamp ch idx =>
    rw [State.bufRead_congr (s := s) idx.toNat hch rfl, State.bufRead_state s]
    rfl
  case decode ch =>
    rw [State.mapBits_congr (s := s) _ hch rfl rfl, State.mapBits_state s ch.toNat s.cfg.nbits]
    rfl
  case rdfc ch => rw [hch]; rfl
  case rdld ch => rw [hch]; rfl
  case clrfc ch => rw [hch, State.setChan_comm hk]; rfl
  case clrld ch => rw [hch, State.setChan_comm hk]; rfl

/-- Settles O46: rejecting an operation and performing it both commute with replacing another channel's record. -/
theorem channelsAreIndependent : Obligations.ChannelsAreIndependent :=
  fun _ _ _ k c hk hf h =>
    exec_of_effect (f := fun s => s.setChan k c) rfl (fun _ => State.answer_setChan ..) (effect_setChan c hk hf) h

/-! ## Free values (R14, R23, R90, R169) -/

theorem runWord_draws_le {s t : State} {p : Port} {w : Word} (h : runWord p w s = .next t) : s.draws ≤ t.draws := by
  obtain ⟨_, _, _, _, hd⟩ := runWord_keeps h
  exact hd

/-- Free values are only used up, at a reset too (R14). -/
theorem step_draws_le {s t : State} (h : step s = .next t) : s.draws ≤ t.draws := by
  rcases step_cases h with ⟨_, rfl⟩ | ⟨w, _, rfl⟩ | ⟨w, _, rfl⟩ | ⟨_, rfl⟩ | ⟨_, rfl⟩ | ⟨_, _, rfl⟩ | ⟨_, _, rfl⟩ |
    ⟨w, ws, _, _, hx⟩ | ⟨w, _, _, hx⟩
  · simp
  · simp
  · simp
  · simp
  · simp
  · simp
  · simp
  · simpa using runWord_draws_le hx
  · simpa using runWord_draws_le hx

/-- A fallthrough's timestamp is the next free value, which is used up (R90). -/
theorem exec_edge_fallthrough_draws {s : State} {a b : ChanNo} {ts : Tick}
    (h : s.cfg.service = .fallthrough a.toNat b.toNat) (ha : a.toNat < s.cfg.channels)
    (hb : b.toNat < s.chans.length) :
    ∃ t cb, exec (.edge a ts) s = .next t ∧ t.draws = s.draws + 1 ∧ t.chans[b.toNat]? = some cb ∧
      cb.lastTs = Config.draw16 s.draws := by
  refine ⟨_, edgeStep s.cfg (Config.draw16 s.draws) ((s.edgeStepOn a.toNat ts).chan b.toNat), exec_edge ha, ?_, ?_,
    edgeStep_lastTs ..⟩
  · simp [State.edgeBody_fallthrough h]
  · simp [State.edgeBody_fallthrough h, hb, State.chan]

/-- An RDSAMP answers an unwritten entry with the next free value and uses it up (R23, R104). -/
theorem exec_rdsamp_draws {s : State} {ch : ChanNo} {c : Channel} {idx : BitVec 8} (hc : s.Has ch c)
    (hi : idx.toNat < s.cfg.capacity) :
    ∃ t, exec (.rdsamp ch idx) s = .next t ∧
      (c.buf.read idx.toNat ≠ none → t.draws = s.draws) ∧
      (c.buf.read idx.toNat = none → t.draws = s.draws + 1 ∧
        t.sync = .responded { status := 0, data := (Config.draw16 s.draws).setWidth 32 }) := by
  obtain ⟨hch, hrec⟩ := hc
  refine ⟨_, exec_rdsamp hch hi, fun hne => ?_, fun hr => ?_⟩
  · obtain ⟨v, hv⟩ := Option.ne_none_iff_exists'.1 hne
    rw [State.bufRead_written (v := v) (by rw [State.chan_eq hrec, hv])]
    simp
  · rw [State.bufRead_unwritten (by rw [State.chan_eq hrec, hr])]
    simp [zextSample]

/-- The unwritten spaces among those of the bits below `n` (R23, R73). -/
def Memory.unwrittenSpaces (m : Memory) (n : Nat) : Nat :=
  (List.range n).countP fun k => (m.read (3 + 2 * k)).isNone

theorem spaceIndex_eq (b : Nat) : spaceIndex b = 3 + 2 * b := by
  unfold spaceIndex; omega

theorem Memory.unwrittenSpaces_succ (m : Memory) (b : Nat) :
    m.unwrittenSpaces (b + 1) = m.unwrittenSpaces b + if (m.read (spaceIndex b)).isNone then 1 else 0 := by
  simp [Memory.unwrittenSpaces, List.range_succ, List.countP_append, List.countP_singleton, spaceIndex_eq]

theorem State.bufRead_draws (s : State) (ch i : Nat) :
    (s.bufRead ch i).2.draws = s.draws + if ((s.chan ch).buf.read i).isNone then 1 else 0 := by
  cases hr : (s.chan ch).buf.read i with
  | none => rw [State.bufRead_unwritten hr]; rfl
  | some v => rw [State.bufRead_written hr]; rfl

/-- DECODE's loop uses up one free value for each unwritten space (R23, R100). -/
theorem State.mapBits_draws (s : State) (ch n : Nat) :
    (s.mapBits ch n).2.draws = s.draws + (s.chan ch).buf.unwrittenSpaces n := by
  induction n with
  | zero => rfl
  | succ b ih =>
    rw [State.mapBits_succ, State.bufRead_draws, State.mapBits_chan, ih, Memory.unwrittenSpaces_succ, Nat.add_assoc]

/-- The bit of an unwritten space is that of the free value after those of the unwritten spaces before it (R100). -/
theorem State.getLsbD_mapBits_unwritten {s : State} {ch n b : Nat} (hb : b < 32) (hn : b < n)
    (h : (s.chan ch).buf.read (spaceIndex b) = none) :
    (s.mapBits ch n).1.getLsbD b =
      bitOf s.cfg (Config.draw16 (s.draws + (s.chan ch).buf.unwrittenSpaces b)) := by
  have hr : ((s.mapBits ch b).2.chan ch).buf.read (spaceIndex b) = none := by rw [State.mapBits_chan, h]
  rw [State.getLsbD_mapBits _ _ _ _ hb, State.bufRead_unwritten hr, State.draw16_value, State.mapBits_draws]
  simp [hn]

/-- Settles O47, by what a step, a fallthrough, an RDSAMP and a DECODE do to the count of free values. -/
theorem freeValuesAreNeverReused : Obligations.FreeValuesAreNeverReused := by
  refine ⟨fun _ _ => step_draws_le, fun _ _ _ _ => exec_edge_fallthrough_draws, fun _ _ _ _ => exec_rdsamp_draws, ?_⟩
  rintro s ch c ⟨hch, hrec⟩
  have hbuf : (s.chan ch.toNat).buf = c.buf := by rw [State.chan_eq hrec]
  refine ⟨_, (s.mapBits ch.toNat s.cfg.nbits).1, exec_decode hch, ?_, rfl, fun b hb hn hr => ?_⟩
  · rw [State.respond_draws, State.mapBits_draws, hbuf]
    rfl
  · rw [State.getLsbD_mapBits_unwritten hb hn (by rw [hbuf, spaceIndex_eq, hr]), hbuf]
    rfl

end Sys2Proof.Machine
end

section
/-! PROOFS. The state (10_state.md): who writes each field of a channel record (R20 to R27), the invariants between
operations (R33), and the entries that nothing writes (R23, R29). -/

namespace Sys2Proof.Machine

/-! ## What an edge step does to the flags (R25 to R27) -/

/-- An edge step completes a frame, or it keeps `fc` and clears no `ld`: on every record, whatever its cursor. -/
theorem edgeStep_flags (cfg : Config) (ts : Tick) (c : Channel) :
    ((edgeStep cfg ts c).fc = true ∧ (edgeStep cfg ts c).wcur = 0 ∧ (edgeStep cfg ts c).ld = false) ∨
    ((edgeStep cfg ts c).fc = c.fc ∧ (c.ld = true → (edgeStep cfg ts c).ld = true)) := by
  unfold edgeStep Channel.finish
  dsimp only
  split
  · exact .inl ⟨rfl, rfl, rfl⟩
  · refine .inr ?_
    unfold Channel.store Channel.detect
    split <;> split <;> simp [Channel.startCapture]

theorem edgeStep_fc {cfg : Config} {ts : Tick} {c : Channel} (h : c.fc = true) : (edgeStep cfg ts c).fc = true := by
  rcases edgeStep_flags cfg ts c with ⟨hf, _, _⟩ | ⟨hf, _⟩
  · exact hf
  · rw [hf, h]

/-- What an EDGE can make of the record of channel `k` where its service reaches it: one edge step, or two if the
fallthrough leads from `k` to `k` itself, which R9 excludes. -/
def EdgedFrom (cfg : Config) (k : Nat) (c c' : Channel) : Prop :=
  ∃ ts c₀, c' = edgeStep cfg ts c₀ ∧ (c₀ = c ∨ (cfg.service = .fallthrough k k ∧ ∃ ts₀, c₀ = edgeStep cfg ts₀ c))

theorem EdgedFrom.once (cfg : Config) (k : Nat) (ts : Tick) (c : Channel) : EdgedFrom cfg k c (edgeStep cfg ts c) :=
  ⟨ts, c, rfl, .inl rfl⟩

/-- A fallthrough leads to another channel (R9). -/
theorem service_ne_self {cfg : Config} (hw : cfg.wf = true) (k : Nat) : cfg.service ≠ .fallthrough k k := by
  intro h
  obtain ⟨_, _, _, _, _, _, _, _, hs, _⟩ := (Config.wf_iff cfg).1 hw
  simp [Config.serviceOk, h] at hs

theorem EdgedFrom.edgeStep_of_wf {cfg : Config} {k : Nat} {c c' : Channel} (hw : cfg.wf = true)
    (h : EdgedFrom cfg k c c') : ∃ ts, c' = edgeStep cfg ts c := by
  obtain ⟨ts, c₀, rfl, rfl | ⟨hs, _⟩⟩ := h
  · exact ⟨ts, rfl⟩
  · exact absurd hs (service_ne_self hw k)

theorem EdgedFrom.fc {cfg : Config} {k : Nat} {c c' : Channel} (h : EdgedFrom cfg k c c') (hc : c.fc = true) :
    c'.fc = true := by
  obtain ⟨ts, c₀, rfl, rfl | ⟨_, ts₀, rfl⟩⟩ := h
  · exact edgeStep_fc hc
  · exact edgeStep_fc (edgeStep_fc hc)

/-! ## One channel's record under one operation, a fallthrough's target included -/

theorem State.setChan_record {s : State} {ch k : Nat} {c c' : Channel} (f : Channel → Channel)
    (hc : s.chans[k]? = some c) (hc' : (s.setChan ch (f (s.chan ch))).chans[k]? = some c') :
    (ch = k ∧ c' = f c) ∨ (ch ≠ k ∧ c' = c) := by
  rw [State.setChan_getElem?, hc] at hc'
  split at hc'
  · next h => exact .inl ⟨h, (Option.some.inj hc').symm⟩
  · next h => exact .inr ⟨h, (Option.some.inj hc').symm⟩

/-- EDGE's body leaves a record alone, or its service reaches the channel (R81, R90). -/
theorem State.edgeBody_record {s : State} {ch k : Nat} {ts : Tick} {c c' : Channel} (hc : s.chans[k]? = some c)
    (hc' : (s.edgeBody ch ts).chans[k]? = some c') :
    c' = c ∨ ((ch = k ∨ s.cfg.service = .fallthrough ch k) ∧ EdgedFrom s.cfg k c c') := by
  rcases notSource_or_fallthrough s.cfg ch with hn | ⟨b, hb⟩
  · rw [State.edgeBody_notSource hn] at hc'
    rcases State.setChan_record (edgeStep s.cfg ts) hc hc' with ⟨hk, rfl⟩ | ⟨_, rfl⟩
    · exact .inr ⟨.inl hk, EdgedFrom.once ..⟩
    · exact .inl rfl
  · rw [State.edgeBody_fallthrough hb] at hc'
    have hlen : k < (s.edgeStepOn ch ts).chans.length := by
      rw [State.edgeStepOn_chans, List.length_set]
      exact (List.getElem?_eq_some_iff.1 hc).1
    have hmid := State.getElem?_chan hlen
    have hown := State.setChan_record (edgeStep s.cfg ts) hc hmid
    rcases State.setChan_record (s := (s.edgeStepOn ch ts).draw16.2) (edgeStep s.cfg (Config.draw16 s.draws)) hmid hc'
      with ⟨rfl, rfl⟩ | ⟨_, rfl⟩
    · refine .inr ⟨.inr hb, _, _, rfl, ?_⟩
      rcases hown with ⟨rfl, e⟩ | ⟨_, e⟩
      · exact .inr ⟨hb, ts, e⟩
      · exact .inl e
    · rcases hown with ⟨hk, e⟩ | ⟨_, e⟩
      · rw [e]; exact .inr ⟨.inl hk, EdgedFrom.once ..⟩
      · exact .inl e

/-- All that an operation can do to the record of a channel (R17, R20). -/
theorem exec_record {s t : State} {i : Instr} {k : Nat} {c c' : Channel} (h : exec i s = .next t)
    (hc : s.chans[k]? = some c) (hc' : t.chans[k]? = some c') :
    c' = c ∨
    (∃ ch ts, i = .edge ch ts ∧ (ch.toNat = k ∨ s.cfg.service = .fallthrough ch.toNat k) ∧ EdgedFrom s.cfg k c c') ∨
    (∃ ch, i = .clrfc ch ∧ ch.toNat = k ∧ c' = c.clearFc) ∨
    (∃ ch, i = .clrld ch ∧ ch.toNat = k ∧ c' = c.clearLd) := by
  have same : t.chans = s.chans → c' = c := fun e => by
    rw [e, hc] at hc'
    exact (Option.some.inj hc').symm
  rcases exec_cases h with ⟨code, _, rfl⟩ | ⟨_, rfl⟩
  · exact .inl (same (State.reject_chans ..))
  cases i with
  | edge ch ts =>
    rcases State.edgeBody_record hc hc' with e | ⟨hk, he⟩
    · exact .inl e
    · exact .inr (.inl ⟨ch, ts, rfl, hk, he⟩)
  | rdfc ch => exact .inl (same rfl)
  | rdld ch => exact .inl (same rfl)
  | rdsamp ch idx => exact .inl (same (by dsimp only [effect]; rw [State.respond_chans, State.bufRead_state]))
  | decode ch => exact .inl (same (by dsimp only [effect]; rw [State.respond_chans, State.mapBits_state]))
  | clrfc ch =>
    rcases State.setChan_record Channel.clearFc hc hc' with ⟨hk, e⟩ | ⟨_, e⟩
    · exact .inr (.inr (.inl ⟨ch, rfl, hk, e⟩))
    · exact .inl e
  | clrld ch =>
    rcases State.setChan_record Channel.clearLd hc hc' with ⟨hk, e⟩ | ⟨_, e⟩
    · exact .inr (.inr (.inr ⟨ch, rfl, hk, e⟩))
    · exact .inl e

/-! ## One channel's record under one step -/

/-- The next step is the acceptance of an EDGE on channel `k`, or of one that falls through to it (R43, R90). -/
def EdgeReaches (s : State) (k : Nat) : Prop :=
  s.nextEvent = some .accept ∧ ∃ w ws ch ts, s.presented = w :: ws ∧
    decodeCmd s.cfg .capture w = .ok (.edge ch ts) ∧ (ch.toNat = k ∨ s.cfg.service = .fallthrough ch.toNat k)

/-- The next step is the linearization point of the consumer operation `op` on channel `k` (R42). -/
def Performs (op : ChanNo → Instr) (s : State) (k : Nat) : Prop :=
  s.nextEvent = some .perform ∧ ∃ w ch, s.sync = .requested w ∧ ch.toNat = k ∧
    decodeCmd s.cfg .consumer w = .ok (op ch)

/-- All that a word can do to the record of a channel at its linearization point: it is kept, or the word's operation
is one of the three that write records. -/
theorem runWord_record {s t : State} {p : Port} {w : Word} {k : Nat} {c c' : Channel} (h : runWord p w s = .next t)
    (hc : s.chans[k]? = some c) (hc' : t.chans[k]? = some c') :
    c' = c ∨
    (p = .capture ∧ (∃ ch ts, decodeCmd s.cfg p w = .ok (.edge ch ts) ∧
      (ch.toNat = k ∨ s.cfg.service = .fallthrough ch.toNat k)) ∧ EdgedFrom s.cfg k c c') ∨
    (p = .consumer ∧ (∃ ch, ch.toNat = k ∧ decodeCmd s.cfg p w = .ok (.clrfc ch)) ∧ c' = c.clearFc) ∨
    (p = .consumer ∧ (∃ ch, ch.toNat = k ∧ decodeCmd s.cfg p w = .ok (.clrld ch)) ∧ c' = c.clearLd) := by
  rcases runWord_cases h with ⟨code, _, rfl⟩ | ⟨i, hd, hx⟩
  · rw [State.reject_chans, hc] at hc'
    exact .inl (Option.some.inj hc').symm
  · have hp := decodeCmd_port hd
    rcases exec_record hx hc hc' with e | ⟨ch, ts, rfl, hk, he⟩ | ⟨ch, rfl, hk, e⟩ | ⟨ch, rfl, hk, e⟩
    · exact .inl e
    · exact .inr (.inl ⟨hp.symm, ⟨ch, ts, hd, hk⟩, he⟩)
    · exact .inr (.inr (.inl ⟨hp.symm, ⟨ch, hk, hd⟩, e⟩))
    · exact .inr (.inr (.inr ⟨hp.symm, ⟨ch, hk, hd⟩, e⟩))

/-- All that a step can do to the record of a channel, from every state (R20, R42, R43, R150). -/
theorem step_record {s t : State} {k : Nat} {c c' : Channel} (h : step s = .next t) (hc : s.chans[k]? = some c)
    (hc' : t.chans[k]? = some c') :
    c' = c ∨
    (s.nextEvent = some .reset ∧ ∃ ts, c' = Channel.reset ts) ∨
    (EdgeReaches s k ∧ EdgedFrom s.cfg k c c') ∨
    (Performs .clrfc s k ∧ c' = c.clearFc) ∨
    (Performs .clrld s k ∧ c' = c.clearLd) := by
  have same : t.chans = s.chans → c' = c := fun e => by
    rw [e, hc] at hc'
    exact (Option.some.inj hc').symm
  rcases step_cases h with ⟨_, rfl⟩ | ⟨w, _, rfl⟩ | ⟨w, _, rfl⟩ | ⟨_, rfl⟩ | ⟨hs, rfl⟩ | ⟨_, _, rfl⟩ | ⟨_, _, rfl⟩ |
    ⟨w, ws, hs, hp, hx⟩ | ⟨w, hs, hy, hx⟩
  · exact .inl (same rfl)
  · exact .inl (same rfl)
  · exact .inl (same (State.issueWord_chans ..))
  · exact .inl (same (State.acknowledge_chans ..))
  · obtain ⟨ch, _, rfl⟩ := List.mem_map.1 (List.mem_of_getElem? hc')
    exact .inr (.inl ⟨hs, _, rfl⟩)
  · exact .inl (same rfl)
  · exact .inl (same rfl)
  · rcases runWord_record hx hc hc' with e | ⟨_, ⟨ch, ts, hd, hk⟩, he⟩ | ⟨hq, _⟩ | ⟨hq, _⟩
    · exact .inl e
    · exact .inr (.inr (.inl ⟨⟨hs, w, ws, ch, ts, hp, hd, hk⟩, he⟩))
    · cases hq
    · cases hq
  · rcases runWord_record hx hc hc' with e | ⟨hq, _⟩ | ⟨_, ⟨ch, hk, hd⟩, e⟩ | ⟨_, ⟨ch, hk, hd⟩, e⟩
    · exact .inl e
    · cases hq
    · exact .inr (.inr (.inr (.inl ⟨⟨hs, w, ch, hy, hk, hd⟩, e⟩)))
    · exact .inr (.inr (.inr (.inr ⟨⟨hs, w, ch, hy, hk, hd⟩, e⟩)))

/-! ## The invariants between operations (R33, R65) -/

theorem State.resetOf_inv {cfg : Config} (hw : cfg.wf = true) : (State.resetOf cfg).Inv := by
  refine ⟨hw, by simp, fun c hc => ?_, rfl, rfl⟩
  obtain ⟨ch, _, rfl⟩ := List.mem_map.1 hc
  exact Channel.reset_inv hw _

/-- The number of channel records is fixed (R154). -/
theorem step_chans_length {s t : State} (h : step s = .next t) (hl : s.chans.length = s.cfg.channels) :
    t.chans.length = s.chans.length := by
  rcases step_cases h with ⟨_, rfl⟩ | ⟨w, _, rfl⟩ | ⟨w, _, rfl⟩ | ⟨_, rfl⟩ | ⟨_, rfl⟩ | ⟨_, _, rfl⟩ | ⟨_, _, rfl⟩ |
    ⟨w, ws, _, _, hx⟩ | ⟨w, _, _, hx⟩
  · rfl
  · rfl
  · rw [State.issueWord_chans, State.advance_chans]
  · rw [State.acknowledge_chans, State.advance_chans]
  · simp [hl]
  · rfl
  · rfl
  · obtain ⟨_, _, _, hlen, _⟩ := runWord_keeps hx
    exact hlen
  · obtain ⟨_, _, _, hlen, _⟩ := runWord_keeps hx
    exact hlen

/-- A step keeps the invariant of each channel (R33). -/
theorem step_record_inv {s t : State} {k : Nat} {c c' : Channel} (hw : s.cfg.wf = true) (h : step s = .next t)
    (hc : s.chans[k]? = some c) (hc' : t.chans[k]? = some c') (hi : c.Inv s.cfg) : c'.Inv s.cfg := by
  rcases step_record h hc hc' with rfl | ⟨_, ts, rfl⟩ | ⟨_, he⟩ | ⟨_, rfl⟩ | ⟨_, rfl⟩
  · exact hi
  · exact Channel.reset_inv hw ts
  · obtain ⟨ts, rfl⟩ := he.edgeStep_of_wf hw
    exact edgeStep_inv hw hi
  · exact Channel.clearFc_inv hi
  · exact Channel.clearLd_inv hi

/-- A step keeps the invariant of every channel (R33). -/
theorem step_chans_inv {s t : State} (hw : s.cfg.wf = true) (hl : s.chans.length = s.cfg.channels)
    (hi : ∀ c ∈ s.chans, c.Inv s.cfg) (h : step s = .next t) : ∀ c ∈ t.chans, c.Inv s.cfg := by
  intro c' hm
  obtain ⟨k, hk, hc'⟩ := List.getElem_of_mem hm
  have hks : k < s.chans.length := step_chans_length h hl ▸ hk
  exact step_record_inv hw h (State.getElem?_chan hks) (List.getElem?_eq_some_iff.2 ⟨hk, hc'⟩)
    (hi _ (State.mem_chans_chan hks))

/-- The response that a word makes is a response of R65, and the other port's is kept. -/
theorem runWord_responsesOk {s t : State} {p : Port} {w : Word} (h : runWord p w s = .next t)
    (hy : s.sync.respOk = true) (ho : outputOk s.output = true) :
    t.sync.respOk = true ∧ outputOk t.output = true := by
  rcases runWord_cases h with ⟨code, _, rfl⟩ | ⟨i, _, hx⟩
  · cases p
    · exact ⟨hy, decide_eq_true (Response.ok_reject code)⟩
    · exact ⟨decide_eq_true (Response.ok_reject code), ho⟩
  · rcases exec_answers hx with ⟨_, hs, r, hr, e⟩ | ⟨_, hs, r, hr, e⟩ <;> rw [hs, e]
    · exact ⟨hy, decide_eq_true hr⟩
    · exact ⟨decide_eq_true hr, ho⟩

/-- Every step keeps the responses within R65: the one under way, and the one just delivered. -/
theorem step_responsesOk {s t : State} (h : step s = .next t) (hy : s.sync.respOk = true) :
    t.sync.respOk = true ∧ outputOk t.output = true := by
  rcases step_cases h with ⟨_, rfl⟩ | ⟨w, _, rfl⟩ | ⟨w, _, rfl⟩ | ⟨_, rfl⟩ | ⟨_, rfl⟩ | ⟨_, _, rfl⟩ | ⟨_, _, rfl⟩ |
    ⟨w, ws, _, _, hx⟩ | ⟨w, _, _, hx⟩
  · exact ⟨hy, rfl⟩
  · exact ⟨hy, rfl⟩
  · refine ⟨?_, by rw [State.issueWord_output]; rfl⟩
    unfold State.issueWord
    split
    · rfl
    · exact hy
    · exact hy
  · unfold State.acknowledge
    split
    · next r hr =>
      rw [State.advance_sync] at hr
      rw [hr] at hy
      exact ⟨rfl, hy⟩
    · exact ⟨hy, rfl⟩
    · exact ⟨hy, rfl⟩
  · exact ⟨rfl, rfl⟩
  · exact ⟨hy, rfl⟩
  · exact ⟨hy, rfl⟩
  · exact runWord_responsesOk hx hy rfl
  · exact runWord_responsesOk hx hy rfl

theorem step_inv {s t : State} (hi : s.Inv) (h : step s = .next t) : t.Inv := by
  obtain ⟨hw, hl, hc, hy, _⟩ := hi
  obtain ⟨hcfg, _, _, _⟩ := step_ports h
  unfold State.Inv
  rw [hcfg]
  exact ⟨hw, (step_chans_length h hl).trans hl, step_chans_inv hw hl hc h, step_responsesOk h hy⟩

/-- Settles O11: a step keeps each channel's invariant, by what it can do to one record, and the responses' form. -/
theorem everyStepKeepsTheInvariant : Obligations.EveryStepKeepsTheInvariant :=
  fun _ _ => step_inv

/-- Settles O10: every reset record meets the channel's invariant, and the document's constants meet R8. -/
theorem resetStateMeetsTheInvariant : Obligations.ResetStateMeetsTheInvariant :=
  ⟨fun _ => State.resetOf_inv, State.resetOf_inv Config.default_wf⟩

/-! ## Entries that are not written (R23, R29) -/

/-- Settles O32: DECODE's loop changes the count of free values alone, by the number of unwritten spaces. -/
theorem decodeDrawsAFreeValueForEachUnwrittenSpace : Obligations.DecodeDrawsAFreeValueForEachUnwrittenSpace := by
  rintro s ch c ⟨hch, hrec⟩
  have hbuf : (s.chan ch.toNat).buf = c.buf := by rw [State.chan_eq hrec]
  refine ⟨(s.mapBits ch.toNat s.cfg.nbits).1, ?_, fun b hb hn hr => ?_⟩
  · rw [exec_decode hch, State.mapBits_state, State.mapBits_draws, hbuf]
    rfl
  · rw [State.getLsbD_mapBits_unwritten hb hn (by rw [hbuf, spaceIndex_eq, hr]), hbuf]
    rfl

/-- Settles O40: under the invariant the buffer is written below `T` only, so an RDSAMP from `T` on draws. -/
theorem entriesPastTheFrameAreNeverWritten : Obligations.EntriesPastTheFrameAreNeverWritten := by
  rintro s ch idx c ⟨_, _, hinv, _, _⟩ hc hT hC
  obtain ⟨_, hbelow, _⟩ := hinv c (List.mem_of_getElem? hc.2)
  obtain ⟨t, ht, _, hdraw⟩ := exec_rdsamp_draws hc hC
  exact ⟨t, ht, hdraw (Memory.read_of_below hbelow hT)⟩

/-! ## Who writes what (R20, R25 to R27, R114) -/

/-- Settles O41: of what a step can do to a record, edge steps and CLRLD keep a set `fc`. -/
theorem onlyClrfcOrResetClearsFrameComplete : Obligations.OnlyClrfcOrResetClearsFrameComplete := by
  intro s t k c c' h hc hc' hset hclear
  rcases step_record h hc hc' with rfl | ⟨hs, _⟩ | ⟨_, he⟩ | ⟨hp, _⟩ | ⟨_, rfl⟩
  · simp [hset] at hclear
  · exact .inl hs
  · simp [he.fc hset] at hclear
  · exact .inr hp
  · simp [Channel.clearLd, hset] at hclear

/-- Settles O42: of what a step can do to a record, the clears change flags only. -/
theorem onlyEdgeOrResetWritesTimestampBufferCursor : Obligations.OnlyEdgeOrResetWritesTimestampBufferCursor := by
  intro s t k c c' h hc hc' hne
  rcases step_record h hc hc' with rfl | ⟨hs, _⟩ | ⟨he, _⟩ | ⟨_, rfl⟩ | ⟨_, rfl⟩
  · simp at hne
  · exact .inl hs
  · exact .inr he
  · simp [Channel.clearFc] at hne
  · simp [Channel.clearLd] at hne

/-- A step that sets a flag is an edge step, and one that sets `fc` completes a frame (R25, R26, R87). -/
theorem step_sets_flag {s t : State} {k : Nat} {c c' : Channel} (hw : s.cfg.wf = true) (h : step s = .next t)
    (hc : s.chans[k]? = some c) (hc' : t.chans[k]? = some c') :
    (c.ld = false → c'.ld = true → EdgeReaches s k) ∧
    (c.fc = false → c'.fc = true → EdgeReaches s k ∧ c'.ld = false ∧ c'.wcur = 0) := by
  rcases step_record h hc hc' with rfl | ⟨_, ts, rfl⟩ | ⟨hr, he⟩ | ⟨_, rfl⟩ | ⟨_, rfl⟩
  · simp +contextual
  · simp [Channel.reset]
  · refine ⟨fun _ _ => hr, fun hf hf' => ?_⟩
    obtain ⟨ts, rfl⟩ := he.edgeStep_of_wf hw
    rcases edgeStep_flags s.cfg ts c with ⟨_, hcur, hld⟩ | ⟨hkeep, _⟩
    · exact ⟨hr, hld, hcur⟩
    · simp [hkeep, hf] at hf'
  · simp +contextual [Channel.clearFc]
  · simp +contextual [Channel.clearLd]

/-- A step that clears `ld` is reset, an edge step that completes a frame, or a CLRLD (R25, R27). -/
theorem step_clears_ld {s t : State} {k : Nat} {c c' : Channel} (hw : s.cfg.wf = true) (h : step s = .next t)
    (hc : s.chans[k]? = some c) (hc' : t.chans[k]? = some c') (hset : c.ld = true) (hclear : c'.ld = false) :
    s.nextEvent = some .reset ∨ (EdgeReaches s k ∧ c'.fc = true ∧ c'.wcur = 0) ∨ Performs .clrld s k := by
  rcases step_record h hc hc' with rfl | ⟨hs, _⟩ | ⟨hr, he⟩ | ⟨_, rfl⟩ | ⟨hp, _⟩
  · simp [hset] at hclear
  · exact .inl hs
  · obtain ⟨ts, rfl⟩ := he.edgeStep_of_wf hw
    rcases edgeStep_flags s.cfg ts c with ⟨hfc, hcur, _⟩ | ⟨_, hkeep⟩
    · exact .inr (.inl ⟨hr, hfc, hcur⟩)
    · simp [hkeep hset] at hclear
  · simp [Channel.clearFc, hset] at hclear
  · exact .inr (.inr hp)

/-- Settles O43, by the steps that set a flag and the steps that clear `ld`. -/
theorem whoSetsAndClearsTheFlags : Obligations.WhoSetsAndClearsTheFlags := by
  intro s t k c c' hw h hc hc'
  obtain ⟨hld, hfc⟩ := step_sets_flag hw h hc hc'
  exact ⟨hld, hfc, step_clears_ld hw h hc hc'⟩

end Sys2Proof.Machine
end

section
/-! PROOFS. The two ports and the order of operations (20_memory.md): what moves the ports (R42, R43, R80), that what is
outstanding is answered (R54, R58), that every linearization is a run (R44), and what reads, clears and EDGEs do to one
another (R45, R50, R57). -/

namespace Sys2Proof.Machine

/-! ## Runs of the machine -/

theorem core_run_one {s t : State} (h : step s = .next t) : Host.Core.run core 1 s = .next t := core_run_succ h

/-- A run in two parts. -/
theorem core_run_add {s u : State} {m : Nat} (n : Nat) (h : Host.Core.run core m s = .next u) :
    Host.Core.run core (m + n) s = Host.Core.run core n u := by
  induction m generalizing s with
  | zero => injection h with h; rw [Nat.zero_add, ← h]
  | succ m ih =>
    obtain ⟨t, ht⟩ := step_next s
    rw [core_run_succ ht] at h
    rw [Nat.add_right_comm, core_run_succ ht]
    exact ih h

/-- Progress: if each step from where `Q` fails keeps `P` at a lower count, a run within the count reaches `Q`. -/
theorem core_run_until {P : Nat → State → Prop} {Q : State → Prop}
    (hmove : ∀ k s t, P k s → ¬ Q s → step s = .next t → ∃ j, j < k ∧ P j t) {k : Nat} {s : State} (h : P k s) :
    ∃ n j u, n + j ≤ k ∧ Host.Core.run core n s = .next u ∧ P j u ∧ Q u := by
  induction k using Nat.strong_induction_on generalizing s with
  | _ k ih =>
    by_cases hq : Q s
    · exact ⟨0, k, s, by omega, rfl, h, hq⟩
    · obtain ⟨t, ht⟩ := step_next s
      obtain ⟨j, hj, hP⟩ := hmove k s t h hq ht
      obtain ⟨n, i, u, hle, hrun, hPu, hQ⟩ := ih j hj hP
      exact ⟨n + 1, i, u, by omega, by rw [core_run_succ ht, hrun], hPu, hQ⟩

/-! ## Linearization points (R42, R43) -/

/-- The step that accepts a word is the word's linearization point, on the state without it. -/
theorem step_accept_word {s : State} {w : Word} {ws : List Word} (he : s.nextEvent = some .accept)
    (hp : s.presented = w :: ws) : step s = runWord .capture w { s.advance with presented := ws } := by
  rw [step_accept he]
  unfold acceptPresented
  rw [State.advance_presented, hp]

/-- The step that performs the outstanding command is its word's linearization point. -/
theorem step_perform_word {s : State} {w : Word} (he : s.nextEvent = some .perform) (hy : s.sync = .requested w) :
    step s = runWord .consumer w s.advance := by
  rw [step_perform he]
  unfold performRequested
  rw [State.advance_sync, hy]

/-! ## The work that is left (R58) -/

/-- The steps that an outstanding command still takes: its linearization point and its acknowledge. -/
def Transaction.movesLeft : Transaction → Nat
  | .idle => 0
  | .requested _ => 2
  | .responded _ => 1

/-- A bound on the steps until nothing is to come and nothing is pending: an event can bring one word or one command. -/
def State.pendingWork (s : State) : Nat := 3 * s.schedule.length + s.presented.length + s.sync.movesLeft

theorem Transaction.movesLeft_le (x : Transaction) : x.movesLeft ≤ 2 := by
  cases x <;> simp [Transaction.movesLeft]

/-- Only an issue lengthens the consumer port's transaction. -/
theorem SyncMoves.movesLeft_le {e : Option Event} {x y : Transaction} (h : SyncMoves e x y)
    (he : ∀ w, e ≠ some (.issue w)) : y.movesLeft ≤ x.movesLeft := by
  unfold SyncMoves at h
  split at h
  · next w => exact absurd rfl (he w)
  · cases x with
    | requested w => obtain ⟨r, rfl⟩ := h.1 w rfl; simp [Transaction.movesLeft]
    | idle => rw [h.2 nofun]
    | responded r => rw [h.2 nofun]
  · cases x with
    | responded r => rw [h.1 r rfl]; simp [Transaction.movesLeft]
    | idle => rw [h.2 nofun]
    | requested w => rw [h.2 nofun]
  · rw [h]; exact Nat.zero_le _
  all_goals rw [h]

theorem presentedAfter_length_le (s : State) (e : Option Event) :
    (presentedAfter s e).length ≤ s.presented.length + 1 := by
  unfold presentedAfter
  split
  · simp
  · rw [List.length_tail]; omega
  all_goals simp

/-- Every step before the end lessens the work that is left. -/
theorem step_pendingWork_lt {s t : State} (h : step s = .next t) (hn : s.nextEvent ≠ none) :
    t.pendingWork < s.pendingWork := by
  obtain ⟨_, hsch, hpre, hsync⟩ := step_ports h
  unfold State.pendingWork
  rw [hsch, hpre]
  cases hs : s.schedule with
  | cons e rest =>
    rw [nextEvent_of_schedule hs] at hsync ⊢
    by_cases hi : ∃ w, e = .issue w
    · obtain ⟨w, rfl⟩ := hi
      have := t.sync.movesLeft_le
      simp only [presentedAfter, List.tail_cons, List.length_cons]
      omega
    · have := hsync.movesLeft_le fun w hw => hi ⟨w, Option.some.inj hw⟩
      have := presentedAfter_length_le s (some e)
      simp only [List.tail_cons, List.length_cons]
      omega
  | nil =>
    obtain ⟨e, he⟩ := Option.ne_none_iff_exists'.1 hn
    rw [he] at hsync ⊢
    rw [nextEvent_of_drained hs] at he
    rcases pendingEvent_cases he with ⟨rfl, w, ws, hp⟩ | ⟨rfl, _, w, hy⟩ | ⟨rfl, _, r, hy⟩
    · rw [hsync]; simp [presentedAfter, hp]
    · obtain ⟨r, hr⟩ := hsync.1 w hy
      simp [presentedAfter, hy, hr, Transaction.movesLeft]
    · rw [hsync.1 r hy]
      simp [presentedAfter, hy, Transaction.movesLeft]

/-- Settles O18: each step before the end lessens the work that is left. -/
theorem nothingStaysPending : Obligations.NothingStaysPending := by
  intro s
  obtain ⟨n, _, t, hle, hrun, _, hend⟩ := core_run_until (P := fun k s => s.pendingWork = k)
    (Q := fun s => s.nextEvent = none)
    (fun _ _ _ hk hq ht => ⟨_, hk ▸ step_pendingWork_lt ht hq, rfl⟩) (s := s) rfl
  have hsch : t.schedule = [] := by
    cases hs : t.schedule with
    | nil => rfl
    | cons e rest => rw [nextEvent_of_schedule hs] at hend; cases hend
  rw [nextEvent_of_drained hsch] at hend
  have := s.sync.movesLeft_le
  exact ⟨n, t, by unfold State.pendingWork at hle; omega, hrun, hsch, pendingEvent_eq_none.1 hend⟩

/-! ## States that differ at their ports only (R32) -/

/-- Two states that hold the same but for their ports, what is to come and what was delivered. -/
structure State.Agrees (s u : State) : Prop where
  chans : s.chans = u.chans
  draws : s.draws = u.draws
  cfg : s.cfg = u.cfg

theorem State.Agrees.trans {s u v : State} (h : s.Agrees u) (h' : u.Agrees v) : s.Agrees v :=
  ⟨h.chans.trans h'.chans, h.draws.trans h'.draws, h.cfg.trans h'.cfg⟩

/-! ## An outstanding command (R42, R58) -/

/-- The event that an outstanding command waits for. -/
def Transaction.awaits : Transaction → Option Event
  | .idle => none
  | .requested _ => some .perform
  | .responded _ => some .acknowledge

/-- An outstanding command stays as it is until the event it waits for, or reset. -/
theorem SyncMoves.keeps {e : Option Event} {x y : Transaction} (h : SyncMoves e x y) (hx : x ≠ .idle)
    (he : e ≠ x.awaits) (hr : e ≠ some .reset) : y = x := by
  unfold SyncMoves at h
  split at h
  · rwa [if_neg hx] at h
  · exact h.2 fun w hw => he (by rw [hw]; rfl)
  · exact h.2 fun r hw => he (by rw [hw]; rfl)
  · exact absurd rfl hr
  all_goals exact h

theorem step_keeps_outstanding {s t : State} (h : step s = .next t) (hx : s.sync ≠ .idle)
    (he : s.nextEvent ≠ s.sync.awaits) (hr : s.nextEvent ≠ some .reset) : t.sync = s.sync := by
  obtain ⟨_, _, _, hsync⟩ := step_ports h
  exact hsync.keeps hx he hr

/-- No reset comes next when none is to come: what is pending is none. -/
theorem nextEvent_ne_reset {s : State} (h : .reset ∉ s.schedule) : s.nextEvent ≠ some .reset := by
  intro he
  cases hs : s.schedule with
  | nil =>
    rw [nextEvent_of_drained hs] at he
    rcases pendingEvent_cases he with ⟨hc, _⟩ | ⟨hc, _⟩ | ⟨hc, _⟩ <;> cases hc
  | cons e rest =>
    rw [nextEvent_of_schedule hs] at he
    rw [hs, Option.some.inj he] at h
    exact h (List.mem_cons_self ..)

/-- While a command is outstanding something comes next. -/
theorem nextEvent_ne_none {s : State} (h : s.sync ≠ .idle) : s.nextEvent ≠ none := by
  intro he
  cases hs : s.schedule with
  | nil => rw [nextEvent_of_drained hs] at he; exact h (pendingEvent_eq_none.1 he).2
  | cons e rest => rw [nextEvent_of_schedule hs] at he; cases he

theorem step_noReset {s t : State} (h : step s = .next t) (hr : .reset ∉ s.schedule) : .reset ∉ t.schedule := by
  obtain ⟨_, hsch, _, _⟩ := step_ports h
  rw [hsch]
  exact fun hm => hr (List.mem_of_mem_tail hm)

/-- An outstanding command meets the event it waits for, unless reset comes. -/
theorem run_until_awaited {s : State} (hr : .reset ∉ s.schedule) (hx : s.sync ≠ .idle) :
    ∃ n u, n + u.pendingWork ≤ s.pendingWork ∧ Host.Core.run core n s = .next u ∧ .reset ∉ u.schedule ∧
      u.sync = s.sync ∧ u.nextEvent = s.sync.awaits := by
  obtain ⟨n, _, u, hle, hrun, ⟨rfl, hru, hy⟩, he⟩ := core_run_until
    (P := fun k u => u.pendingWork = k ∧ .reset ∉ u.schedule ∧ u.sync = s.sync)
    (Q := fun u => u.nextEvent = s.sync.awaits)
    (fun k u v ⟨hk, hru, hy⟩ hq hv => by
      rw [← hy] at hx hq ⊢
      exact ⟨_, hk ▸ step_pendingWork_lt hv (nextEvent_ne_none hx), rfl, step_noReset hv hru,
        step_keeps_outstanding hv hx hq (nextEvent_ne_reset hru)⟩) (s := s) ⟨rfl, hr, rfl⟩
  exact ⟨n, u, hle, hrun, hru, hy, he⟩

/-- The linearization point of the outstanding command makes its response (R42). -/
theorem step_responds {s : State} {w : Word} (hy : s.sync = .requested w) (he : s.nextEvent = some .perform) :
    ∃ t r, step s = .next t ∧ t.sync = .responded r := by
  obtain ⟨t, ht⟩ := step_next s
  obtain ⟨_, _, _, hsync⟩ := step_ports ht
  rw [he] at hsync
  obtain ⟨r, hr⟩ := hsync.1 w hy
  exact ⟨t, r, ht, hr⟩

/-- The acknowledge delivers the response and frees the port (R42). -/
theorem step_acknowledges {s : State} {r : Response} (hy : s.sync = .responded r)
    (he : s.nextEvent = some .acknowledge) :
    ∃ t, step s = .next t ∧ t.sync = .idle ∧ t.output = some { port := .consumer, response := r } ∧
      t.schedule = s.schedule.tail ∧ t.presented = s.presented ∧ t.Agrees s := by
  refine ⟨_, step_acknowledge he, ?_, ?_, by simp, by simp, by constructor <;> simp⟩ <;>
    simp [State.acknowledge, hy]

/-- `EveryIssuedCommandIsAcknowledged` of one command, with a bound of `b` steps. -/
def AcknowledgedWithin (b : Nat) (s : State) (w : Word) : Prop :=
  ∃ (k n : Nat) (u v t : State) (r : Response), k < n ∧ n ≤ b ∧
    Host.Core.run core k s = .next u ∧ u.nextEvent = some .perform ∧ u.sync = .requested w ∧
    step u = .next v ∧ v.sync = .responded r ∧
    Host.Core.run core n s = .next t ∧ t.sync = .idle ∧ t.output = some { port := .consumer, response := r }

/-- An outstanding command meets its linearization point, and its response the acknowledge. -/
theorem acknowledged_of_requested {s : State} {w : Word} (hr : .reset ∉ s.schedule) (hy : s.sync = .requested w) :
    AcknowledgedWithin s.pendingWork s w := by
  obtain ⟨k, u, hk, hrunu, hru, hyu, heu⟩ := run_until_awaited hr (by rw [hy]; nofun)
  rw [hy] at hyu heu
  obtain ⟨v, r, hv, hyv⟩ := step_responds hyu heu
  obtain ⟨m, x, hm, hrunx, _, hyx, hex⟩ := run_until_awaited (step_noReset hv hru) (by rw [hyv]; nofun)
  rw [hyv] at hyx hex
  obtain ⟨t, ht, hidle, hout, _⟩ := step_acknowledges hyx hex
  have hv_lt := step_pendingWork_lt hv (by rw [heu]; nofun)
  have ht_lt := step_pendingWork_lt ht (by rw [hex]; nofun)
  refine ⟨k, k + (m + 1 + 1), u, v, t, r, by omega, by omega, hrunu, heu, hyu, hv, hyv, ?_, hidle, hout⟩
  rw [core_run_add _ hrunu, core_run_succ hv, core_run_add _ hrunx, core_run_one ht]

/-- A command acknowledged from the next state on is acknowledged from this one on. -/
theorem AcknowledgedWithin.of_step {s t : State} {w : Word} {b : Nat} (h : step s = .next t)
    (ht : AcknowledgedWithin b t w) : AcknowledgedWithin (b + 1) s w := by
  obtain ⟨k, n, u, v, x, r, hkn, hn, hrunu, heu, hyu, hv, hyv, hrunx, hidle, hout⟩ := ht
  exact ⟨k + 1, n + 1, u, v, x, r, by omega, by omega, by rw [core_run_succ h, hrunu], heu, hyu, hv, hyv,
    by rw [core_run_succ h, hrunx], hidle, hout⟩

theorem AcknowledgedWithin.mono {s : State} {w : Word} {b b' : Nat} (h : AcknowledgedWithin b s w) (hb : b ≤ b') :
    AcknowledgedWithin b' s w := by
  obtain ⟨k, n, u, v, t, r, hkn, hn, hrest⟩ := h
  exact ⟨k, n, u, v, t, r, hkn, hn.trans hb, hrest⟩

/-- Settles O16: an outstanding command meets the two events it waits for; an issue makes its word outstanding. -/
theorem everyIssuedCommandIsAcknowledged : Obligations.EveryIssuedCommandIsAcknowledged := by
  refine ⟨fun s w hr hy => (acknowledged_of_requested hr hy).mono ?_, fun s w rest hr hy hs => ?_⟩
  · simp [State.pendingWork, hy, Transaction.movesLeft]
  · obtain ⟨t, ht⟩ := step_next s
    obtain ⟨_, hsch, hpre, hsync⟩ := step_ports ht
    rw [nextEvent_of_schedule hs] at hpre hsync
    have hyt : t.sync = .requested w := by simpa [SyncMoves, hy] using hsync
    refine ((acknowledged_of_requested (step_noReset ht hr) hyt).of_step ht).mono ?_
    simp only [State.pendingWork, hyt, hsch, hpre, hs, presentedAfter, Transaction.movesLeft, List.tail_cons,
      List.length_cons]
    omega

/-! ## Events that an outstanding command does not see (R42) -/

/-- Events of the schedule at which an outstanding command stays as it is pass, one a step. -/
theorem run_keeps_outstanding {s : State} {es rest : List Event} (hs : s.schedule = es ++ rest) (hx : s.sync ≠ .idle)
    (he : ∀ e ∈ es, some e ≠ s.sync.awaits ∧ e ≠ .reset) :
    ∃ t, Host.Core.run core es.length s = .next t ∧ t.schedule = rest ∧ t.sync = s.sync := by
  induction es generalizing s with
  | nil => exact ⟨s, rfl, hs, rfl⟩
  | cons e es ih =>
    obtain ⟨hwait, hreset⟩ := he e (List.mem_cons_self ..)
    obtain ⟨u, hu⟩ := step_next s
    have hnext := nextEvent_of_schedule hs
    obtain ⟨_, hsch, _, _⟩ := step_ports hu
    have hy : u.sync = s.sync := step_keeps_outstanding hu hx (hnext ▸ hwait) (by simpa [hnext] using hreset)
    rw [hs] at hsch
    obtain ⟨t, hrun, hts, hty⟩ := ih hsch (hy ▸ hx) fun e' hm => hy ▸ he e' (List.mem_cons_of_mem _ hm)
    exact ⟨t, by rw [List.length_cons, core_run_succ hu, hrun], hts, hty.trans hy⟩

/-- Accepts, presents and issues are no event that an outstanding command waits for. -/
theorem not_awaited {e : Event} (h : e = .accept ∨ (∃ x, e = .present x) ∨ ∃ x, e = .issue x) (x : Transaction) :
    some e ≠ x.awaits ∧ e ≠ .reset := by
  rcases h with rfl | ⟨w, rfl⟩ | ⟨w, rfl⟩ <;> cases x <;> simp [Transaction.awaits]

/-- Settles O15: the events before the perform keep the request, and those before the acknowledge the response. -/
theorem outstandingCommandIsAnswered : Obligations.OutstandingCommandIsAnswered := by
  intro s w before between rest hy he hs
  obtain ⟨u, hrunu, hsu, hyu⟩ := run_keeps_outstanding (es := before)
    (rest := .perform :: between ++ .acknowledge :: rest) (by simpa using hs) (by rw [hy]; nofun)
    fun e hm => not_awaited (he e (List.mem_append_left _ hm)) _
  rw [hy] at hyu
  obtain ⟨v, r, hv, hyv⟩ := step_responds hyu (nextEvent_of_schedule hsu)
  obtain ⟨_, hsv, _, _⟩ := step_ports hv
  rw [hsu] at hsv
  obtain ⟨x, hrunx, hsx, hyx⟩ := run_keeps_outstanding (es := between) (rest := .acknowledge :: rest) hsv
    (by rw [hyv]; nofun) fun e hm => not_awaited (he e (List.mem_append_right _ hm)) _
  rw [hyv] at hyx
  obtain ⟨t, ht, hidle, hout, hst, _⟩ := step_acknowledges hyx (nextEvent_of_schedule hsx)
  refine ⟨u, v, t, r, hrunu, hv, hyv, ?_, hidle, hout, by rw [hst, hsx]; rfl⟩
  rw [show before.length + between.length + 2 = before.length + (between.length + 1 + 1) by omega,
    core_run_add _ hrunu, core_run_succ hv, core_run_add _ hrunx, core_run_one ht]

/-! ## A presented word (R58, R133) -/

/-- `w` waits on the capture port with `after` behind it and whatever came later. `k` counts the events to come and the
words before it, which bounds the steps until its acceptance comes next. -/
def WaitsWith (cfg : Config) (w : Word) (after : List Word) (k : Nat) (s : State) : Prop :=
  s.cfg = cfg ∧ .reset ∉ s.schedule ∧ ∃ before later, s.presented = before ++ w :: (after ++ later) ∧
    k = s.schedule.length + before.length

/-- The next step accepts `w`, with `after` behind it and whatever came later. -/
def AcceptedNext (w : Word) (after : List Word) (s : State) : Prop :=
  s.nextEvent = some .accept ∧ ∃ later, s.presented = w :: (after ++ later)

/-- What waits on the capture port after a step other than reset: the same words, or all but the oldest after an
accept, and one more behind them after a present. -/
theorem presentedAfter_cases {s : State} {e : Option Event} (hr : e ≠ some .reset) :
    (e = some .accept ∧ presentedAfter s e = s.presented.tail) ∨
    (e ≠ some .accept ∧ ∃ later, presentedAfter s e = s.presented ++ later) := by
  unfold presentedAfter
  split
  · exact .inr ⟨by simp, _, rfl⟩
  · exact .inl ⟨rfl, rfl⟩
  · exact absurd rfl hr
  all_goals exact .inr ⟨by simp, [], by simp⟩

/-- A word that is not accepted next comes nearer to its acceptance at each step. -/
theorem step_waitsWith {cfg : Config} {w : Word} {after : List Word} {k : Nat} {s t : State}
    (h : WaitsWith cfg w after k s) (hq : ¬ AcceptedNext w after s) (ht : step s = .next t) :
    ∃ j, j < k ∧ WaitsWith cfg w after j t := by
  obtain ⟨hcfg, hr, before, later, hp, rfl⟩ := h
  obtain ⟨hcfgt, hsch, hpre, _⟩ := step_ports ht
  have hlen : t.schedule.length = s.schedule.length - 1 := by rw [hsch, List.length_tail]
  rcases presentedAfter_cases (s := s) (nextEvent_ne_reset hr) with ⟨he, htail⟩ | ⟨he, more, hmore⟩
  · cases before with
    | nil => exact absurd ⟨he, later, hp⟩ hq
    | cons x before =>
      refine ⟨t.schedule.length + before.length, by rw [List.length_cons]; omega, hcfgt.trans hcfg,
        step_noReset ht hr, before, later, ?_, rfl⟩
      rw [hpre, htail, hp, List.cons_append, List.tail_cons]
  · have hpos : 0 < s.schedule.length := by
      refine List.length_pos_iff.2 fun hs => he ?_
      rw [nextEvent_of_drained hs]
      unfold State.pendingEvent
      rw [hp]
      cases before <;> rfl
    refine ⟨t.schedule.length + before.length, by omega, hcfgt.trans hcfg, step_noReset ht hr, before, later ++ more,
      ?_, rfl⟩
    rw [hpre, hmore, hp]
    simp

/-- An EDGE that decoding gives is performed and answered (0, 0) on the capture port (R64, R81). -/
theorem exec_edge_of_decodeCmd {s : State} {p : Port} {w : Word} {ch : ChanNo} {ts : Tick}
    (h : decodeCmd s.cfg p w = .ok (.edge ch ts)) :
    ∃ t, exec (.edge ch ts) s = .next t ∧
      t.output = some { port := .capture, response := { status := 0, data := 0 } } := by
  obtain ⟨_, _, _, _, _, hr⟩ := decodeCmd_ok h
  exact ⟨_, (exec_eq_accepted ..).trans (State.accepted_of_none hr), rfl⟩

/-- Settles O17: each step takes the word nearer to its acceptance, which performs the EDGE. -/
theorem everyPresentedEdgeIsPerformed : Obligations.EveryPresentedEdgeIsPerformed := by
  intro s before after w hr hp
  obtain ⟨n, _, u, hle, hrun, ⟨hcfg, _⟩, he, later, hpu⟩ := core_run_until
    (P := WaitsWith s.cfg w after) (Q := AcceptedNext w after)
    (fun _ _ _ h hq ht => step_waitsWith h hq ht) (s := s) ⟨rfl, hr, before, [], by simpa using hp, rfl⟩
  refine ⟨n, u, later, by omega, hrun, hcfg, he, hpu, fun ch ts hd => ?_⟩
  rw [← hcfg] at hd
  obtain ⟨t, ht, hout⟩ := exec_edge_of_decodeCmd
    (s := { u with schedule := u.schedule.tail, presented := after ++ later, output := none }) hd
  obtain ⟨_, _, hpre, _⟩ := exec_keeps ht
  exact ⟨t, ((step_accept_word he hpu).trans (runWord_ok hd)).trans ht, hpre, ht, hout⟩

/-! ## The word of an operation at its linearization point (R66, R69) -/

theorem encode_fields (i : Instr) :
    opcodeOf (opField (encode i)) = some i.opcode ∧ chField (encode i) = i.chan ∧
      reservedZero i.opcode (encode i) = true :=
  match i with
  | .edge ch ts => Laws.WordFields.edge ch ts
  | .rdfc ch => Laws.WordFields.rdfc ch
  | .rdld ch => Laws.WordFields.rdld ch
  | .rdsamp ch idx => Laws.WordFields.rdsamp ch idx
  | .decode ch => Laws.WordFields.decode ch
  | .clrfc ch => Laws.WordFields.clrfc ch
  | .clrld ch => Laws.WordFields.clrld ch

/-- The operands of a command's word are the command's (R67). -/
theorem operands_encode (i : Instr) : operands i.opcode (encode i) = i := by
  cases i <;> simp [operands, Instr.opcode, encode]

theorem decodeFields_encode (i : Instr) : decodeFields i.port (encode i) = .ok i := by
  obtain ⟨hop, _, hz⟩ := encode_fields i
  simp [decodeFields, hop, Instr.port, hz, operands_encode]

/-- At its linearization point the word of an operation does what the operation does, also when that is a reject. -/
theorem runWord_encode (i : Instr) (s : State) : runWord i.port (encode i) s = exec i s := by
  cases hr : rangeReject s.cfg i with
  | none => exact runWord_ok (by simp [decodeCmd, decodeFields_encode, hr])
  | some code => rw [exec_reject hr]; exact runWord_error (by simp [decodeCmd, decodeFields_encode, hr])

/-! ## What an operation reads (R32, R44) -/

theorem State.Agrees.answer {s u : State} (h : s.Agrees u) (p : Port) (r : Response) :
    (s.answer p r).Agrees (u.answer p r) :=
  ⟨by simpa using h.chans, by simpa using h.draws, by simpa using h.cfg⟩

theorem State.Agrees.setChan {s u : State} (h : s.Agrees u) (ch : Nat) (c : Channel) :
    (s.setChan ch c).Agrees (u.setChan ch c) :=
  ⟨congrArg (·.set ch c) h.chans, h.draws, h.cfg⟩

theorem State.Agrees.edgeStepOn {s u : State} (h : s.Agrees u) (ch : Nat) (ts : Tick) :
    (s.edgeStepOn ch ts).Agrees (u.edgeStepOn ch ts) := by
  unfold State.edgeStepOn
  rw [State.chan_congr h.chans, h.cfg]
  exact h.setChan ..

theorem State.Agrees.edgeBody {s u : State} (h : s.Agrees u) (ch : Nat) (ts : Tick) :
    (s.edgeBody ch ts).Agrees (u.edgeBody ch ts) := by
  rcases notSource_or_fallthrough s.cfg ch with hn | ⟨b, hb⟩
  · rw [State.edgeBody_notSource hn, State.edgeBody_notSource (h.cfg ▸ hn)]
    exact h.edgeStepOn ch ts
  · rw [State.edgeBody_fallthrough hb, State.edgeBody_fallthrough (h.cfg ▸ hb), h.draws]
    obtain ⟨hch, hd, hcfg⟩ := h.edgeStepOn ch ts
    have hdraw : (s.edgeStepOn ch ts).draw16.2.Agrees (u.edgeStepOn ch ts).draw16.2 :=
      ⟨hch, congrArg (· + 1) hd, hcfg⟩
    exact hdraw.edgeStepOn b _

/-- The response to an operation that ends with `r` on its port. -/
theorem responseTo_answer (i : Instr) (s : State) (r : Response) : responseTo i (s.answer i.port r) = some r := by
  unfold responseTo
  cases i.port <;> rfl

/-- An operation's effect and its response depend on the channel records, the configuration and the free values only. -/
theorem State.Agrees.effect {s u : State} (h : s.Agrees u) (i : Instr) :
    (effect i s).Agrees (effect i u) ∧ responseTo i (effect i s) = responseTo i (effect i u) := by
  have hch : ∀ k, s.chan k = u.chan k := State.chan_congr h.chans
  cases i <;> dsimp only [Machine.effect]
  case edge ch ts => exact ⟨(h.edgeBody _ ts).answer .., rfl⟩
  case rdfc ch => rw [hch]; exact ⟨h.answer .., rfl⟩
  case rdld ch => rw [hch]; exact ⟨h.answer .., rfl⟩
  case rdsamp ch idx =>
    rw [State.bufRead_congr (s := u) idx.toNat (hch _) h.draws, State.bufRead_state u]
    have hread : { s with draws := (u.bufRead ch.toNat idx.toNat).2.draws }.Agrees
        { u with draws := (u.bufRead ch.toNat idx.toNat).2.draws } := ⟨h.chans, rfl, h.cfg⟩
    exact ⟨hread.answer .., rfl⟩
  case decode ch =>
    rw [h.cfg, State.mapBits_congr (s := u) _ (hch _) h.draws (by rw [h.cfg]), State.mapBits_state u]
    have hread : { s with draws := (u.mapBits ch.toNat u.cfg.nbits).2.draws }.Agrees
        { u with draws := (u.mapBits ch.toNat u.cfg.nbits).2.draws } := ⟨h.chans, rfl, h.cfg⟩
    exact ⟨hread.answer .., rfl⟩
  case clrfc ch => rw [hch]; exact ⟨(h.setChan ..).answer .., rfl⟩
  case clrld ch => rw [hch]; exact ⟨(h.setChan ..).answer .., rfl⟩

/-- So does the operation, rejected or not. -/
theorem State.Agrees.exec {s u t : State} {i : Instr} (h : s.Agrees u) (hx : exec i s = .next t) :
    ∃ v, Machine.exec i u = .next v ∧ t.Agrees v ∧ responseTo i t = responseTo i v := by
  rcases exec_cases hx with ⟨code, hr, rfl⟩ | ⟨hr, rfl⟩
  · refine ⟨_, exec_reject (h.cfg ▸ hr), h.answer .., ?_⟩
    exact (responseTo_answer ..).trans (responseTo_answer ..).symm
  · exact ⟨_, by rw [exec_eq_accepted, State.accepted_of_none (h.cfg ▸ hr)], h.effect i⟩

/-! ## The events of an operation (R42 to R44, R80) -/

/-- Nothing is on the ports, the given events are to come, and the operations so far have left what `u` holds. -/
def RestsAt (u : State) (es : List Event) (s : State) : Prop :=
  s.Agrees u ∧ s.sync = .idle ∧ s.presented = [] ∧ s.schedule = es

/-- From `s` the events of an operation perform it, on what `s` holds, leave `es` to come and the ports free, and
deliver its response at the last of them. -/
def EventsPerform (i : Instr) (es : List Event) (s : State) : Prop :=
  ∃ (s' t x : State) (r : Response), s'.Agrees s ∧ exec i s' = .next x ∧ responseTo i x = some r ∧
    Host.Core.run core (eventsOf i).length s = .next t ∧ RestsAt x es t ∧
    t.output = some { port := i.port, response := r }

/-- A presented word waits behind the others (R80). -/
theorem step_presents {s : State} {w : Word} {es : List Event} (hs : s.schedule = .present w :: es) :
    ∃ t, step s = .next t ∧ t.Agrees s ∧ t.sync = s.sync ∧ t.presented = s.presented ++ [w] ∧ t.schedule = es :=
  ⟨_, step_present (nextEvent_of_schedule hs), ⟨rfl, rfl, rfl⟩, rfl, rfl, by simp [hs]⟩

/-- A word issued with none outstanding is outstanding (R42). -/
theorem step_issues {s : State} {w : Word} {es : List Event} (hs : s.schedule = .issue w :: es)
    (hy : s.sync = .idle) :
    ∃ t, step s = .next t ∧ t.Agrees s ∧ t.sync = .requested w ∧ t.presented = s.presented ∧ t.schedule = es :=
  ⟨_, step_issue (nextEvent_of_schedule hs), by constructor <;> simp, by simp [State.issueWord, hy], by simp,
    by simp [hs]⟩

/-- The events of an EDGE: its word is presented, and accepted (R43, R80). -/
theorem run_edgeEvents {s : State} {i : Instr} {es : List Event} (hport : i.port = .capture)
    (hy : s.sync = .idle) (hp : s.presented = []) (hs : s.schedule = eventsOf i ++ es) : EventsPerform i es s := by
  have hev : eventsOf i = [.present (encode i), .accept] := by rw [eventsOf, hport]
  rw [hev] at hs
  unfold EventsPerform
  rw [hev]
  obtain ⟨a, ha, haga, hya, hpa, hsa⟩ := step_presents (es := .accept :: es) hs
  rw [hp] at hpa
  have hacc := step_accept_word (nextEvent_of_schedule hsa) hpa
  rw [← hport, runWord_encode] at hacc
  obtain ⟨t, ht⟩ := exec_next i { a.advance with presented := [] }
  obtain ⟨_, hst, hpt, _⟩ := exec_keeps ht
  rcases exec_answers ht with ⟨_, hyt, r, _, hr⟩ | ⟨hc, _⟩
  · have hrun := (core_run_succ (n := 1) ha).trans (core_run_one (hacc.trans ht))
    refine ⟨{ a.advance with presented := [] }, t, t, r, ⟨haga.chans, haga.draws, haga.cfg⟩, ht,
      by simp [responseTo, hport, hr], hrun, ⟨⟨rfl, rfl, rfl⟩, ?_, hpt, ?_⟩, hport ▸ hr⟩
    · rw [hyt]; exact hya.trans hy
    · rw [hst]; simp [hsa]
  · rw [hport] at hc; cases hc

/-- The events of a consumer operation: its word is issued and performed, and its response acknowledged (R42). -/
theorem run_consumerEvents {s : State} {i : Instr} {es : List Event} (hport : i.port = .consumer)
    (hy : s.sync = .idle) (hp : s.presented = []) (hs : s.schedule = eventsOf i ++ es) : EventsPerform i es s := by
  have hev : eventsOf i = [.issue (encode i), .perform, .acknowledge] := by rw [eventsOf, hport]
  rw [hev] at hs
  unfold EventsPerform
  rw [hev]
  obtain ⟨a, ha, haga, hya, hpa, hsa⟩ := step_issues (es := .perform :: .acknowledge :: es) hs hy
  have hperf := step_perform_word (nextEvent_of_schedule hsa) hya
  rw [← hport, runWord_encode] at hperf
  obtain ⟨x, hx⟩ := exec_next i a.advance
  obtain ⟨_, hsx, hpx, _⟩ := exec_keeps hx
  rw [State.advance_schedule, hsa, List.tail_cons] at hsx
  rw [State.advance_presented, hpa, hp] at hpx
  rcases exec_answers hx with ⟨hc, _⟩ | ⟨_, _, r, _, hr⟩
  · rw [hport] at hc; cases hc
  · obtain ⟨t, ht, hidle, hout, hst, hpt, hagt⟩ := step_acknowledges hr (nextEvent_of_schedule hsx)
    rw [hsx] at hst
    have hrun := (core_run_succ (n := 2) ha).trans ((core_run_succ (hperf.trans hx)).trans (core_run_one ht))
    exact ⟨a.advance, t, x, r, ⟨haga.chans, haga.draws, haga.cfg⟩, hx, by simp [responseTo, hport, hr], hrun,
      ⟨hagt, hidle, hpt.trans hpx, hst⟩, hport ▸ hout⟩

/-- The events of one operation do what the operation does, and deliver its response at the last of them. -/
theorem run_eventsOf {s u : State} {i : Instr} {es : List Event} (h : RestsAt u (eventsOf i ++ es) s) :
    ∃ (t v : State) (r : Response), Host.Core.run core (eventsOf i).length s = .next t ∧ exec i u = .next v ∧
      RestsAt v es t ∧ responseTo i v = some r ∧ t.output = some { port := i.port, response := r } := by
  obtain ⟨hag, hy, hp, hs⟩ := h
  have hperform : EventsPerform i es s := by
    cases hport : i.port with
    | capture => exact run_edgeEvents hport hy hp hs
    | consumer => exact run_consumerEvents hport hy hp hs
  obtain ⟨s', t, x, r, hag', hx, hr, hrun, ⟨hagt, hports⟩, hout⟩ := hperform
  obtain ⟨v, hv, hagv, hresp⟩ := (hag'.trans hag).exec hx
  exact ⟨t, v, r, hrun, hv, ⟨hagt.trans hagv, hports⟩, hresp ▸ hr, hout⟩

theorem linearize_cons (i : Instr) (is : List Instr) : linearize (i :: is) = eventsOf i ++ linearize is :=
  List.flatMap_cons ..

theorem linearize_append (xs ys : List Instr) : linearize (xs ++ ys) = linearize xs ++ linearize ys :=
  List.flatMap_append ..

/-- The events of a sequence of operations do what the operations do, one after another (R44). -/
theorem run_linearize {s u : State} {is : List Instr} {es : List Event} (h : RestsAt u (linearize is ++ es) s) :
    ∃ t v, Host.Core.run core (linearize is).length s = .next t ∧ runInstrs is u = .next v ∧ RestsAt v es t := by
  induction is generalizing s u with
  | nil => exact ⟨s, u, rfl, rfl, h⟩
  | cons i is ih =>
    rw [linearize_cons, List.append_assoc] at h
    obtain ⟨a, b, _, hrun, hx, hab, _⟩ := run_eventsOf h
    obtain ⟨t, v, hrun', hx', hv⟩ := ih hab
    refine ⟨t, v, ?_, by rw [runInstrs_cons_next hx, hx'], hv⟩
    rw [linearize_cons, List.length_append, core_run_add _ hrun, hrun']

/-- Settles O20: the events of the operations, one operation after another, and then those of one more. -/
theorem everyLinearizationIsARun : Obligations.EveryLinearizationIsARun := by
  intro s hy hp
  have rests : ∀ es, RestsAt s es { s with schedule := es } := fun es => ⟨⟨rfl, rfl, rfl⟩, hy, hp, rfl⟩
  refine ⟨fun is => ?_, fun before after i => ?_⟩
  · obtain ⟨t, u, hrun, hx, hag, hports⟩ := run_linearize (is := is) (es := [])
      (by rw [List.append_nil]; exact rests (linearize is))
    exact ⟨t, u, hrun, hx, hag.chans, hag.draws, hag.cfg, hports⟩
  · have hsplit : linearize (before ++ i :: after) = linearize before ++ (eventsOf i ++ linearize after) := by
      rw [linearize_append, linearize_cons]
    obtain ⟨m, u, hrun, hx, hm⟩ := run_linearize (rests (linearize before ++ (eventsOf i ++ linearize after)))
    obtain ⟨t, v, r, hrun', hx', _, hr, hout⟩ := run_eventsOf hm
    refine ⟨t, u, v, r, ?_, hx, hx', hr, hout⟩
    rw [hsplit, linearize_append, List.length_append, core_run_add _ hrun]
    simpa [linearize] using hrun'

/-! ## What each event changes (R28, R42 to R44, R154) -/

/-- Only accept, perform and reset change a channel record. -/
theorem step_keeps_chans {s t : State} (h : step s = .next t) (ha : s.nextEvent ≠ some .accept)
    (hp : s.nextEvent ≠ some .perform) (hr : s.nextEvent ≠ some .reset) : t.chans = s.chans := by
  rcases step_cases h with ⟨_, rfl⟩ | ⟨w, _, rfl⟩ | ⟨w, _, rfl⟩ | ⟨_, rfl⟩ | ⟨he, _⟩ | ⟨he, _⟩ | ⟨he, _⟩ |
    ⟨_, _, he, _⟩ | ⟨_, he, _⟩
  · rfl
  · rfl
  · rw [State.issueWord_chans, State.advance_chans]
  · rw [State.acknowledge_chans, State.advance_chans]
  · exact absurd he hr
  · exact absurd he ha
  · exact absurd he hp
  · exact absurd he ha
  · exact absurd he hp

/-- Settles O14, by what a step does to the ports, to the number of records and to the records. -/
theorem onlyLinearizationPointsChangeChannels : Obligations.OnlyLinearizationPointsChangeChannels := by
  intro s t h
  obtain ⟨hcfg, _⟩ := step_ports h
  exact ⟨hcfg, step_chans_length h, step_keeps_chans h⟩

/-- Settles O7: the step of a linearization point is its word's, which decodes to the operation. -/
theorem stepPerformsTheDecodedOperation : Obligations.StepPerformsTheDecodedOperation :=
  ⟨fun _ _ _ _ he hp hd => (step_accept_word he hp).trans (runWord_ok hd),
    fun _ _ _ he hy hd => (step_perform_word he hy).trans (runWord_ok hd),
    fun _ _ _ => nextEvent_of_schedule⟩

/-- An issue with a command outstanding is not accepted (R42). -/
theorem State.issueWord_of_outstanding {s : State} {w : Word} (h : s.sync ≠ .idle) : s.issueWord w = s := by
  unfold State.issueWord
  split
  · next hy => exact absurd hy h
  all_goals rfl

/-- Settles O13: each move of the ports, on the state in which its event is over. -/
theorem portsMoveWordsAndTouchNothingElse : Obligations.PortsMoveWordsAndTouchNothingElse := by
  intro s rest w
  have hadv : ∀ e, s.schedule = e :: rest → s.advance = { s with schedule := rest, output := none } := fun e hs => by
    simp [State.advance, hs]
  refine ⟨fun hs hy => ?_, fun hs hy => ?_, fun r he hy => ?_, fun hs => ?_⟩
  · rw [step_issue (nextEvent_of_schedule hs), hadv _ hs]
    simp [State.issueWord, hy]
  · rw [step_issue (nextEvent_of_schedule hs), State.issueWord_of_outstanding (s := s.advance) hy, hadv _ hs]
  · rw [step_acknowledge he]
    simp [State.acknowledge, State.advance, hy]
  · rw [step_present (nextEvent_of_schedule hs), hadv _ hs]
    rfl

/-! ## Reads and clears (R50) -/

/-- A read answers, and leaves everything else but the supply of free values. -/
theorem effect_of_read {s : State} {i : Instr}
    (h : ∃ ch, i = .rdfc ch ∨ i = .rdld ch ∨ i = .decode ch ∨ ∃ idx, i = .rdsamp ch idx) :
    ∃ d r, i.port = .consumer ∧ effect i s = { s with draws := d, sync := .responded r } := by
  obtain ⟨ch, rfl | rfl | rfl | ⟨idx, rfl⟩⟩ := h
  · exact ⟨_, _, rfl, rfl⟩
  · exact ⟨_, _, rfl, rfl⟩
  · exact ⟨_, _, rfl, by dsimp only [effect]; rw [State.mapBits_state]; rfl⟩
  · exact ⟨_, _, rfl, by dsimp only [effect]; rw [State.bufRead_state]; rfl⟩

/-- A change of one record that is done again changes nothing more. -/
theorem State.setChan_idem (s : State) (ch : Nat) {f : Channel → Channel} (hf : ∀ c, f (f c) = f c) :
    (s.setChan ch (f (s.chan ch))).setChan ch (f ((s.setChan ch (f (s.chan ch))).chan ch)) =
      s.setChan ch (f (s.chan ch)) := by
  by_cases hl : ch < s.chans.length
  · rw [State.chan_setChan_same hl, hf]
    simp [State.setChan]
  · have hnone : ∀ c, s.setChan ch c = s := fun c => by
      simp [State.setChan, List.set_eq_of_length_le (Nat.le_of_not_lt hl)]
    rw [hnone, hnone]

theorem Channel.clearFc_clearFc (c : Channel) : c.clearFc.clearFc = c.clearFc := rfl

theorem Channel.clearLd_clearLd (c : Channel) : c.clearLd.clearLd = c.clearLd := rfl

/-- A clear that takes effect twice leaves the state that it left the first time. -/
theorem effect_clear_idem {s : State} {i : Instr} (h : ∃ ch, i = .clrfc ch ∨ i = .clrld ch) :
    effect i (effect i s) = effect i s := by
  obtain ⟨ch, rfl | rfl⟩ := h
  · exact congrArg (·.respond .consumer 0) (s.setChan_idem ch.toNat Channel.clearFc_clearFc)
  · exact congrArg (·.respond .consumer 0) (s.setChan_idem ch.toNat Channel.clearLd_clearLd)

theorem State.reject_reject (s : State) (p : Port) (code : RejectCode) :
    (s.reject p code).reject p code = s.reject p code := by cases p <;> rfl

/-- Settles O38: a read that is rejected or takes effect only answers; a clear that does either does the same again. -/
theorem readsHaveNoEffectAndClearsAreIdempotent : Obligations.ReadsHaveNoEffectAndClearsAreIdempotent := by
  refine ⟨fun s t i hi h => ?_, fun s t i hi h => ?_⟩
  · obtain ⟨d, r, hport, heff⟩ := effect_of_read (s := s) hi
    rcases exec_cases h with ⟨code, _, rfl⟩ | ⟨_, rfl⟩
    · rw [hport]; exact ⟨rfl, rfl, rfl, rfl, rfl⟩
    · rw [heff]; exact ⟨rfl, rfl, rfl, rfl, rfl⟩
  · have hcfg := (exec_keeps h).1
    rcases exec_cases h with ⟨code, hr, rfl⟩ | ⟨hr, rfl⟩
    · rw [exec_reject (hcfg ▸ hr), State.reject_reject]
    · rw [exec_eq_accepted, State.accepted_of_none (hcfg ▸ hr), effect_clear_idem hi]

/-! ## A cleared flag (R45) -/

/-- An operation that is no EDGE on the channel sets none of its flags (R25, R26). -/
theorem chanEffect_flags {cfg : Config} {ch : ChanNo} {i : Instr} (c : Channel) (he : ∀ ts, i ≠ .edge ch ts) :
    (c.fc = false → (chanEffect cfg ch.toNat i c).fc = false) ∧
    (c.ld = false → (chanEffect cfg ch.toNat i c).ld = false) := by
  by_cases hl : i = .clrld ch
  · subst hl
    simp [chanEffect, Channel.clearLd]
  · rcases chanEffect_other (cfg := cfg) c he hl with e | ⟨_, e⟩ <;> rw [e]
    · exact ⟨id, id⟩
    · exact ⟨fun _ => rfl, id⟩

/-- Nor does a sequence of operations without one. -/
theorem chanRun_flags {cfg : Config} {ch : ChanNo} {is : List Instr} (c : Channel) (h : stampsOn ch is = []) :
    (c.fc = false → (chanRun cfg ch.toNat is c).fc = false) ∧
    (c.ld = false → (chanRun cfg ch.toNat is c).ld = false) := by
  induction is generalizing c with
  | nil => exact ⟨id, id⟩
  | cons i is ih =>
    rcases edgeOn_or_not ch i with ⟨ts, rfl⟩ | he
    · simp [stampsOn] at h
    · rw [stampsOn_cons_other is he] at h
      obtain ⟨hfc, hld⟩ := chanEffect_flags (cfg := cfg) c he
      obtain ⟨hfc', hld'⟩ := ih (chanEffect cfg ch.toNat i c) h
      exact ⟨hfc' ∘ hfc, hld' ∘ hld⟩

/-- A read of a flag at the end of a sequence that leaves the flag clear answers (0, 0). -/
theorem runInstrs_read_clear {s : State} {ch : ChanNo} {c : Channel} {is : List Instr} {i : Instr} {flag : Channel → Bool}
    (hi : ∀ u : State, ch.toNat < u.cfg.channels →
      exec i u = .next (u.respond .consumer (zextFlag (flag (u.chan ch.toNat)))))
    (hc : s.Has ch c) (hn : notTarget s.cfg ch.toNat = true) (hf : flag (chanRun s.cfg ch.toNat is c) = false) :
    ∃ t, runInstrs (is ++ [i]) s = .next t ∧ t.sync = .responded { status := 0, data := 0 } := by
  obtain ⟨u, hu, _, hch, hrec⟩ := runInstrs_has is hc hn
  refine ⟨_, by rw [runInstrs_append_next hu, runInstrs_cons_next (hi u hch), runInstrs_nil], ?_⟩
  rw [State.respond_consumer_sync, State.chan_eq hrec, hf]
  rfl

/-- Settles O48: the clear leaves the flag clear, and no operation but an EDGE on the channel sets it. -/
theorem clearedFlagReadsZero : Obligations.ClearedFlagReadsZero := by
  intro s ch c is hc hn hst
  refine ⟨runInstrs_read_clear (flag := Channel.fc) (fun _ => exec_rdfc) hc hn ?_,
    runInstrs_read_clear (flag := Channel.ld) (fun _ => exec_rdld) hc hn ?_⟩
  · exact (chanRun_flags _ hst).1 (by simp [chanEffect, Channel.clearFc])
  · exact (chanRun_flags _ hst).2 (by simp [chanEffect, Channel.clearLd])

/-! ## EDGEs on different channels (R57) -/

theorem State.edgeStepOn_comm (s : State) {ch k : Nat} (h : ch ≠ k) (ts us : Tick) :
    (s.edgeStepOn ch ts).edgeStepOn k us = (s.edgeStepOn k us).edgeStepOn ch ts := by
  unfold State.edgeStepOn
  rw [State.chan_setChan_other h, State.chan_setChan_other h.symm, State.setChan_comm h]
  rfl

/-- Under SIGNALED_ONLY an EDGE is its one edge step (R90). -/
theorem exec_edge_signaledOnly {s : State} {ch : ChanNo} (ts : Tick) (hs : s.cfg.service = .signaledOnly)
    (hch : ch.toNat < s.cfg.channels) :
    exec (.edge ch ts) s = .next ((s.edgeStepOn ch.toNat ts).respond .capture 0) := by
  rw [exec_edge hch, State.edgeBody_notSource (by simp [notSource, hs])]

/-- Two EDGEs under SIGNALED_ONLY are their two edge steps; each answers (0, 0), and the second answer stands. -/
theorem runInstrs_two_edges {s : State} {ch k : ChanNo} (ts us : Tick) (hs : s.cfg.service = .signaledOnly)
    (hch : ch.toNat < s.cfg.channels) (hk : k.toNat < s.cfg.channels) :
    runInstrs [.edge ch ts, .edge k us] s =
      .next (((s.edgeStepOn ch.toNat ts).edgeStepOn k.toNat us).respond .capture 0) := by
  rw [runInstrs_cons_next (exec_edge_signaledOnly ts hs hch),
    runInstrs_cons_next (exec_edge_signaledOnly (s := (s.edgeStepOn ch.toNat ts).respond .capture 0) us hs hk)]
  rfl

/-- Settles O49: the edge steps are on different records. -/
theorem edgesOnDifferentChannelsCommute : Obligations.EdgesOnDifferentChannelsCommute := by
  intro s ch k ts us hs hne hch hk
  refine ⟨_, runInstrs_two_edges ts us hs hch hk, ?_⟩
  rw [runInstrs_two_edges us ts hs hk hch, State.edgeStepOn_comm s (mt ChanNo.toNat_inj.1 hne)]

end Sys2Proof.Machine
end

section
/-! PROOFS. Command words (30_encoding.md): a word and its four fields (R60), the match and mask rows (R76), that the
decoder and the encoder are each other's inverse (R66, R69), the assembler's words (R69), and the range rejects (R64). -/

namespace Sys2Proof.Machine

/-! ## A word and its fields (R60) -/

theorem fieldsWord_eq_iff {w : Word} {o : BitVec 4} {c : ChanNo} {i : BitVec 8} {t : Tick} :
    w = fieldsWord o c i t ↔ opField w = o ∧ chField w = c ∧ idxField w = i ∧ tsField w = t := by
  constructor
  · rintro rfl; simp
  · rintro ⟨rfl, rfl, rfl, rfl⟩; exact (fieldsWord_fields w).symm

theorem fieldsWord_and (o o' : BitVec 4) (c c' : ChanNo) (i i' : BitVec 8) (t t' : Tick) :
    fieldsWord o c i t &&& fieldsWord o' c' i' t' = fieldsWord (o &&& o') (c &&& c') (i &&& i') (t &&& t') := by
  simp only [fieldsWord, ← BitVec.and_append]

/-- A word under a mask, field by field. -/
theorem and_fieldsWord_eq_iff {w : Word} {o m : BitVec 4} {c n : ChanNo} {i j : BitVec 8} {t u : Tick} :
    w &&& fieldsWord m n j u = fieldsWord o c i t ↔
      opField w &&& m = o ∧ chField w &&& n = c ∧ idxField w &&& j = i ∧ tsField w &&& u = t := by
  conv_lhs => lhs; rw [← fieldsWord_fields w]
  simp [fieldsWord_and, fieldsWord_eq_iff]

/-- The value of a word is the sum of its fields' values, each shifted to its place (R11, R60). -/
theorem toNat_fieldsWord (o : BitVec 4) (c : ChanNo) (i : BitVec 8) (t : Tick) :
    (fieldsWord o c i t).toNat =
      o.toNat * 0x10000000 + c.toNat * 0x1000000 + i.toNat * 0x10000 + t.toNat := by
  have hlow : (i ++ t).toNat = i.toNat * 2 ^ 16 + t.toNat := by
    rw [BitVec.toNat_append, ← Nat.shiftLeft_add_eq_or_of_lt t.isLt, Nat.shiftLeft_eq]
  have hhigh : (o ++ c).toNat = o.toNat * 2 ^ 4 + c.toNat := by
    rw [BitVec.toNat_append, ← Nat.shiftLeft_add_eq_or_of_lt c.isLt, Nat.shiftLeft_eq]
  have hword : (fieldsWord o c i t).toNat = (o ++ c).toNat * 2 ^ 24 + (i ++ t).toNat := by
    rw [← Nat.shiftLeft_eq, Nat.shiftLeft_add_eq_or_of_lt (i ++ t).isLt]
    exact BitVec.toNat_append (o ++ c) (i ++ t)
  rw [hword, hhigh, hlow]
  ring

theorem fieldsWord_eq_ofNat (o : BitVec 4) (c : ChanNo) (i : BitVec 8) (t : Tick) :
    fieldsWord o c i t =
      BitVec.ofNat 32 (o.toNat * 0x10000000 + c.toNat * 0x1000000 + i.toNat * 0x10000 + t.toNat) := by
  rw [← toNat_fieldsWord, BitVec.ofNat_toNat, BitVec.setWidth_eq]

/-- A field of a word as a shift and a mask (R60). -/
theorem toNat_extractLsb'_eq_and (w : Word) {s n : Nat} {m : Word} (hm : m.toNat = 2 ^ n - 1) :
    (w.extractLsb' s n).toNat = ((w >>> s) &&& m).toNat := by
  rw [BitVec.extractLsb'_toNat, BitVec.toNat_and, BitVec.toNat_ushiftRight, hm, Nat.and_two_pow_sub_one_eq_mod]

theorem toNat_chField (w : Word) : (chField w).toNat = ((w >>> 24) &&& 0xF#32).toNat :=
  toNat_extractLsb'_eq_and w rfl

theorem toNat_idxField (w : Word) : (idxField w).toNat = ((w >>> 16) &&& 0xFF#32).toNat :=
  toNat_extractLsb'_eq_and w rfl

theorem toNat_tsField (w : Word) : (tsField w).toNat = (w &&& 0xFFFF#32).toNat :=
  toNat_extractLsb'_eq_and w (s := 0) rfl

/-! ## Decoding and encoding (R66, R69) -/

/-- A word is accepted as a command exactly when it passes every check of R66 and its operands are the command's. -/
theorem decodeCmd_eq_ok_iff {cfg : Config} {p : Port} {w : Word} {i : Instr} :
    decodeCmd cfg p w = .ok i ↔
      (opField w = i.opcode.code ∧ reservedZero i.opcode w = true) ∧ operands i.opcode w = i ∧ i.port = p ∧
        i.wellFormed cfg = true := by
  constructor
  · intro h
    obtain ⟨o, ho, hp, hz, rfl, hr⟩ := decodeCmd_ok h
    rw [operands_opcode]
    exact ⟨⟨opcodeOf_eq_some.1 ho, hz⟩, rfl, decodeCmd_port h, rangeReject_none_iff.1 hr⟩
  · rintro ⟨⟨ho, hz⟩, hi, hp, hw⟩
    have hport : i.opcode.port = p := hp
    simp [decodeCmd, decodeFields, ho, opcodeOf_code, hport, hz, hi, rangeReject_none_iff.2 hw]

/-- A word of an operation whose reserved fields are zero is the word of the command that it carries (R63, R67). -/
theorem encode_operands {o : Opcode} {w : Word} (ho : opField w = o.code) (hz : reservedZero o w = true) :
    encode (operands o w) = w := by
  symm
  cases o <;> simp_all [reservedZero, operands, encode, fieldsWord_eq_iff]

theorem homePort_encode (i : Instr) : homePort (encode i) = i.port := by
  obtain ⟨hop, _, _⟩ := encode_fields i
  simp [homePort, hop, Instr.port]

theorem decodeTableWord_encode (i : Instr) : decodeTableWord 32 (encode i).toNat = some i := by
  rw [decodeTableWord, if_pos ⟨le_rfl, (encode i).isLt⟩, BitVec.ofNat_toNat, BitVec.setWidth_eq, homePort_encode,
    decodeFields_encode]

/-- Settles O2: the word of a command holds the operation's code and zero in the reserved fields, and its operands are
the command's. -/
theorem encodedCommandDecodesToItself : Obligations.EncodedCommandDecodesToItself := by
  intro cfg i hw
  obtain ⟨hop, _, hz⟩ := encode_fields i
  exact ⟨decodeCmd_eq_ok_iff.2 ⟨⟨opcodeOf_eq_some.1 hop, hz⟩, operands_encode i, rfl, hw⟩, decodeTableWord_encode i⟩

/-- Settles O3: the checks leave no bit of the word free beside the operands. -/
theorem acceptedWordIsTheEncodingOfItsCommand : Obligations.AcceptedWordIsTheEncodingOfItsCommand := by
  intro cfg p w i h
  obtain ⟨⟨ho, hz⟩, hi, hp, hw⟩ := decodeCmd_eq_ok_iff.1 h
  exact ⟨hi ▸ encode_operands ho hz, hp, hw⟩

/-! ## The match and mask rows (R76) -/

/-- The match of an operation's row (R76). -/
def rowMatch : Opcode → Word
  | .edge => 0x10000000#32
  | .rdfc => 0x20000000#32
  | .rdld => 0x30000000#32
  | .rdsamp => 0x40000000#32
  | .decode => 0x50000000#32
  | .clrfc => 0x60000000#32
  | .clrld => 0x70000000#32

/-- The mask of an operation's row (R76). -/
def rowMask : Opcode → Word
  | .edge => 0xF0FF0000#32
  | .rdsamp => 0xF000FFFF#32
  | .rdfc | .rdld | .decode | .clrfc | .clrld => 0xF0FFFFFF#32

/-- A match is the operation's code, and zero in every other field. -/
theorem rowMatch_eq (o : Opcode) : rowMatch o = fieldsWord o.code 0 0 0 := by cases o <;> rfl

/-- A mask covers the operation code and the fields that the operation does not read. -/
theorem rowMask_eq (o : Opcode) :
    rowMask o = fieldsWord (BitVec.allOnes 4) 0 (if o = .rdsamp then 0 else BitVec.allOnes 8)
      (if o = .edge then 0 else BitVec.allOnes 16) := by
  cases o <;> rfl

/-- A word matches a row exactly when it has the row's code and zero in the reserved fields (R61, R63). -/
theorem and_rowMask_eq_iff {w : Word} {o : Opcode} :
    w &&& rowMask o = rowMatch o ↔ opField w = o.code ∧ reservedZero o w = true := by
  rw [rowMask_eq, rowMatch_eq, and_fieldsWord_eq_iff, BitVec.and_allOnes]
  cases o <;> simp [reservedZero, -BitVec.reduceAllOnes]

/-- A word is accepted as a command by the row of its operation. -/
theorem decodeCmd_eq_ok_iff_row {cfg : Config} {p : Port} {w : Word} {i : Instr} :
    decodeCmd cfg p w = .ok i ↔
      w &&& rowMask i.opcode = rowMatch i.opcode ∧ operands i.opcode w = i ∧
        i.chan.toNat < cfg.channels ∧ i.indexOk cfg = true ∧ p = i.port := by
  have hw : i.wellFormed cfg = true ↔ i.chan.toNat < cfg.channels ∧ i.indexOk cfg = true := by
    rw [Instr.wellFormed, Bool.and_eq_true, Instr.channelOk, decide_eq_true_iff]
  rw [decodeCmd_eq_ok_iff, and_rowMask_eq_iff, hw, eq_comm (a := p)]
  tauto

/-- An operand is a field's value exactly when the field holds the operand. -/
theorem toNat_eq_field_iff {n : Nat} {x field : BitVec n} {v : Nat} (h : field.toNat = v) :
    x.toNat = v ↔ field = x := by
  rw [← h, BitVec.toNat_inj, eq_comm]

/-- The row of an operation whose one operand is the channel. -/
theorem decodeCmd_chanRow {cfg : Config} {p : Port} {w : Word} {i : Instr}
    (hops : operands i.opcode w = i ↔ chField w = i.chan) (hidx : i.indexOk cfg = true) :
    decodeCmd cfg p w = .ok i ↔
      w &&& rowMask i.opcode = rowMatch i.opcode ∧
        (i.chan.toNat = ((w >>> 24) &&& 0xF#32).toNat ∧ i.chan.toNat < cfg.channels) ∧ p = i.port := by
  rw [decodeCmd_eq_ok_iff_row, hops, toNat_eq_field_iff (toNat_chField w)]
  tauto

theorem decodeCmd_edgeRow {cfg : Config} {p : Port} {w : Word} {c : ChanNo} {t : Tick} :
    decodeCmd cfg p w = .ok (.edge c t) ↔
      w &&& rowMask .edge = rowMatch .edge ∧
        (c.toNat = ((w >>> 24) &&& 0xF#32).toNat ∧ c.toNat < cfg.channels) ∧
        t.toNat = (w &&& 0xFFFF#32).toNat ∧ p = .capture := by
  have hops : operands .edge w = .edge c t ↔ chField w = c ∧ tsField w = t :=
    .of_eq (Instr.edge.injEq ..)
  have hidx : (Instr.edge c t).indexOk cfg = true := rfl
  rw [decodeCmd_eq_ok_iff_row, toNat_eq_field_iff (toNat_chField w), toNat_eq_field_iff (toNat_tsField w)]
  exact and_congr_right fun _ => (and_congr_left fun _ => hops).trans (by tauto)

theorem decodeCmd_rdsampRow {cfg : Config} {p : Port} {w : Word} {c : ChanNo} {i : BitVec 8} :
    decodeCmd cfg p w = .ok (.rdsamp c i) ↔
      w &&& rowMask .rdsamp = rowMatch .rdsamp ∧
        (c.toNat = ((w >>> 24) &&& 0xF#32).toNat ∧ c.toNat < cfg.channels) ∧
        i.toNat = ((w >>> 16) &&& 0xFF#32).toNat ∧ i.toNat < cfg.capacity ∧ p = .consumer := by
  have hops : operands .rdsamp w = .rdsamp c i ↔ chField w = c ∧ idxField w = i :=
    .of_eq (Instr.rdsamp.injEq ..)
  have hidx : (Instr.rdsamp c i).indexOk cfg = true ↔ i.toNat < cfg.capacity := decide_eq_true_iff
  rw [decodeCmd_eq_ok_iff_row, hidx, toNat_eq_field_iff (toNat_chField w), toNat_eq_field_iff (toNat_idxField w)]
  exact and_congr_right fun _ => (and_congr_left fun _ => hops).trans (by tauto)

/-- Settles O5: the rows of the table, with their masks and matches as fields. -/
theorem matchAndMaskRowsDecideTheOperation : Obligations.MatchAndMaskRowsDecideTheOperation := by
  intro cfg p w c
  exact ⟨fun _ => decodeCmd_edgeRow,
    decodeCmd_chanRow (i := .rdfc c) (.of_eq (Instr.rdfc.injEq ..)) rfl,
    decodeCmd_chanRow (i := .rdld c) (.of_eq (Instr.rdld.injEq ..)) rfl,
    fun _ => decodeCmd_rdsampRow,
    decodeCmd_chanRow (i := .decode c) (.of_eq (Instr.decode.injEq ..)) rfl,
    decodeCmd_chanRow (i := .clrfc c) (.of_eq (Instr.clrfc.injEq ..)) rfl,
    decodeCmd_chanRow (i := .clrld c) (.of_eq (Instr.clrld.injEq ..)) rfl⟩

/-- Settles O1: the decoder run on the eight words. -/
theorem wordsOfTheTablesDecode : Obligations.WordsOfTheTablesDecode := by
  unfold Obligations.WordsOfTheTablesDecode
  decide

/-! ## The assembler (R69) -/

theorem asmChan_of_lt {ch : Nat} (h : ch < 16) : asmChan ch = some (BitVec.ofNat 4 ch) := if_pos h

theorem asmChan_of_ge {ch : Nat} (h : 16 ≤ ch) : asmChan ch = none := if_neg (by omega)

theorem asmIdx_of_lt {idx : Nat} (h : idx < 256) : asmIdx idx = some (BitVec.ofNat 8 idx) := if_pos h

theorem asmIdx_of_ge {idx : Nat} (h : 256 ≤ idx) : asmIdx idx = none := if_neg (by omega)

theorem asmTs_of_lt {ts : Nat} (h : ts < 65536) : asmTs ts = some (BitVec.ofNat 16 ts) := if_pos h

theorem asmTs_of_ge {ts : Nat} (h : 65536 ≤ ts) : asmTs ts = none := if_neg (by omega)

/-- The word of numbers that fit their fields (R60, R69). -/
theorem fieldsWord_ofNat (o : BitVec 4) {ch idx ts : Nat} (hch : ch < 16) (hidx : idx < 256) (hts : ts < 65536) :
    fieldsWord o (BitVec.ofNat 4 ch) (BitVec.ofNat 8 idx) (BitVec.ofNat 16 ts) =
      BitVec.ofNat 32 (o.toNat * 0x10000000 + ch * 0x1000000 + idx * 0x10000 + ts) := by
  rw [fieldsWord_eq_ofNat, BitVec.toNat_ofNat, BitVec.toNat_ofNat, BitVec.toNat_ofNat, Nat.mod_eq_of_lt hch,
    Nat.mod_eq_of_lt hidx, Nat.mod_eq_of_lt hts]

/-- The word of a channel that fits its field, with no other operand. -/
theorem fieldsWord_chan (o : BitVec 4) {ch : Nat} (hch : ch < 16) :
    fieldsWord o (BitVec.ofNat 4 ch) 0#8 0#16 = BitVec.ofNat 32 (o.toNat * 0x10000000 + ch * 0x1000000) :=
  by simpa using fieldsWord_ofNat o hch (idx := 0) (ts := 0) (by decide) (by decide)

/-- Settles O6: each operand is range-checked by itself, and one that fits is its field's value. -/
theorem assemblerPlacesOperandsOrRejectsThem : Obligations.AssemblerPlacesOperandsOrRejectsThem := by
  refine ⟨fun ch ts hch hts => ?_, fun ch hch => ?_, fun ch idx hch hidx => ?_, fun ch x hch => ?_,
    fun ch ts hts => ?_, fun ch idx hidx => ?_⟩
  · have hword := fieldsWord_ofNat Opcode.edge.code hch (idx := 0) (by decide) hts
    simpa [assemble, asmChan_of_lt hch, asmTs_of_lt hts, encode, Opcode.code] using hword
  · simp [assemble, asmChan_of_lt hch, encode, fieldsWord_chan _ hch, Opcode.code]
  · have hword := fieldsWord_ofNat Opcode.rdsamp.code hch hidx (ts := 0) (by decide)
    simpa [assemble, asmChan_of_lt hch, asmIdx_of_lt hidx, encode, Opcode.code] using hword
  · simp [assemble, asmChan_of_ge hch]
  · simp [assemble, asmTs_of_ge hts]
  · simp [assemble, asmIdx_of_ge hidx]

/-! ## Range rejects (R64) -/

theorem rangeReject_chan {cfg : Config} {i : Instr} (h : cfg.channels ≤ i.chan.toNat) :
    rangeReject cfg i = some .channelRange := if_pos h

theorem rangeReject_rdsamp {cfg : Config} {ch : ChanNo} {idx : BitVec 8} (hch : ch.toNat < cfg.channels)
    (hidx : cfg.capacity ≤ idx.toNat) : rangeReject cfg (.rdsamp ch idx) = some .indexRange := by
  rcases rangeReject_cases cfg (.rdsamp ch idx) with ⟨h, _⟩ | ⟨_, _, e⟩ | ⟨_, h, _⟩
  · exact absurd hch (Nat.not_lt.2 h)
  · exact e
  · exact absurd hidx (Nat.not_le.2 (decide_eq_true_iff.1 h))

/-- Settles O35: an operation that fails a range check is rejected on its own port. -/
theorem operandsOutOfRangeAreRejected : Obligations.OperandsOutOfRangeAreRejected := by
  refine ⟨fun s ch ts h => exec_reject (i := .edge ch ts) (rangeReject_chan h), fun s i h hp => ?_,
    fun s ch idx hch hidx => exec_reject (rangeReject_rdsamp hch hidx)⟩
  rw [exec_reject (rangeReject_chan h), hp]
  rfl

end Sys2Proof.Machine
end

section
/-! PROOFS. EDGE (40_edge.md): the five steps and the transitions on one record (R81 to R91), what a delta measures
(R82, R94), the two service policies and the frame (R88 to R90), captures over sequences of operations (R92 to R96),
and that there is no timeout (R95). -/

namespace Sys2Proof.Machine

/-! ## EDGE's next state (R81, R88 to R90) -/

/-- EDGE is answered with (0, 0), and its own channel gets its one edge step: no fallthrough leads to where it starts. -/
theorem exec_edge_has {s : State} {ch : ChanNo} {c : Channel} (ts : Tick) (hw : s.cfg.wf = true) (hc : s.Has ch c) :
    ∃ t, exec (.edge ch ts) s = .next t ∧ t.Has ch (edgeStep s.cfg ts c) ∧
      t.output = some { port := .capture, response := { status := 0, data := 0 } } := by
  obtain ⟨hch, hrec⟩ := hc
  have hcfg : (s.edgeBody ch.toNat ts).cfg = s.cfg := by rw [State.edgeBody_state]
  refine ⟨_, exec_edge hch, ⟨?_, ?_⟩, rfl⟩
  · rw [State.respond_cfg, hcfg]; exact hch
  · rw [State.respond_chans]
    have hown : (s.edgeStepOn ch.toNat ts).chans[ch.toNat]? = some (edgeStep s.cfg ts c) := by
      have := State.setChan_getElem? s ch.toNat ch.toNat (edgeStep s.cfg ts)
      rwa [if_pos rfl, hrec] at this
    rcases notSource_or_fallthrough s.cfg ch.toNat with hn | ⟨b, hb⟩
    · rw [State.edgeBody_notSource hn, hown]
    · have hne : b ≠ ch.toNat := fun e => service_ne_self hw _ (e ▸ hb)
      rw [State.edgeBody_fallthrough hb, State.edgeStepOn_chans, List.getElem?_set_ne hne, State.draw16_chans, hown]

/-- Where no fallthrough starts, nothing else changes. -/
theorem exec_edge_notSource {s : State} {ch : ChanNo} {c : Channel} (ts : Tick) (hc : s.Has ch c)
    (hn : notSource s.cfg ch.toNat = true) :
    exec (.edge ch ts) s = .next { s with
      chans := s.chans.set ch.toNat (edgeStep s.cfg ts c),
      output := some { port := .capture, response := { status := 0, data := 0 } } } := by
  rw [exec_edge hc.1, State.edgeBody_notSource hn, State.edgeStepOn, State.chan_eq hc.2]
  rfl

/-- EDGE changes no record but those that its service reaches (R17, R90). -/
theorem exec_edge_other {s t : State} {ch : ChanNo} {ts : Tick} {k : Nat} (h : exec (.edge ch ts) s = .next t)
    (hk : k ≠ ch.toNat) (hs : s.cfg.service ≠ .fallthrough ch.toNat k) : t.chans[k]? = s.chans[k]? := by
  obtain ⟨_, _, _, hlen, _⟩ := exec_keeps h
  by_cases hl : k < s.chans.length
  · have hc := State.getElem?_chan hl
    have hc' := State.getElem?_chan (hlen ▸ hl : k < t.chans.length)
    rcases exec_record h hc hc' with e | ⟨_, _, hi, hr, _⟩ | ⟨_, hi, _⟩ | ⟨_, hi, _⟩
    · rw [hc', hc, e]
    · cases hi
      rcases hr with e | e
      · exact absurd e.symm hk
      · exact absurd e hs
    · cases hi
    · cases hi
  · rw [List.getElem?_eq_none (Nat.not_lt.1 hl), List.getElem?_eq_none (hlen ▸ Nat.not_lt.1 hl)]

/-! ## The five steps on any record (R82 to R87) -/

/-- The leader window on the number that the delta is (R83). -/
theorem leaderShaped_iff {cfg : Config} {d : Tick} :
    leaderShaped cfg d = true ↔ cfg.leaderLo < d.toNat ∧ d.toNat < cfg.leaderHi := by
  simp [leaderShaped]

theorem Channel.detect_ld {cfg : Config} {d : Tick} {c : Channel} :
    (c.detect cfg d).ld = true ↔ leaderShaped cfg d = true ∨ c.ld = true := by
  unfold Channel.detect
  split
  · next h => simp [Channel.startCapture, h]
  · next h => simp [h]

theorem Channel.detect_wcur_toNat (cfg : Config) (d : Tick) (c : Channel) :
    (c.detect cfg d).wcur.toNat = if leaderShaped cfg d = true then 0 else c.wcur.toNat := by
  unfold Channel.detect
  split <;> rfl

theorem Channel.detect_keeps (cfg : Config) (d : Tick) (c : Channel) :
    (c.detect cfg d).buf = c.buf ∧ (c.detect cfg d).fc = c.fc := by
  unfold Channel.detect
  split <;> exact ⟨rfl, rfl⟩

/-- There is a leader and room: step 4 stores the delta (R86). -/
abbrev Channel.Stores (cfg : Config) (c : Channel) : Prop := c.ld = true ∧ c.wcur.toNat < cfg.capacity

theorem Channel.store_of_stores {cfg : Config} {c : Channel} (d : Tick) (h : c.Stores cfg) :
    c.store cfg d = { c with buf := c.buf.write c.wcur.toNat d, wcur := c.wcur + 1 } := if_pos h

theorem Channel.store_of_not_stores {cfg : Config} {c : Channel} (d : Tick) (h : ¬ c.Stores cfg) :
    c.store cfg d = c := if_neg h

theorem Channel.store_keeps (cfg : Config) (d : Tick) (c : Channel) :
    (c.store cfg d).ld = c.ld ∧ (c.store cfg d).fc = c.fc := by
  unfold Channel.store
  split <;> exact ⟨rfl, rfl⟩

theorem Channel.finish_of_full {cfg : Config} {c : Channel} (h : c.wcur.toNat = cfg.samples) :
    c.finish cfg = c.finishFrame := if_pos h

theorem Channel.finish_of_not_full {cfg : Config} {c : Channel} (h : c.wcur.toNat ≠ cfg.samples) :
    c.finish cfg = c := if_neg h

theorem Channel.finish_buf (cfg : Config) (c : Channel) : (c.finish cfg).buf = c.buf := by
  unfold Channel.finish
  split <;> rfl

/-- The record after step 3 of an edge step (R81). -/
def detected (cfg : Config) (ts : Tick) (c : Channel) : Channel :=
  { c with lastTs := ts }.detect cfg (duration cfg ts c.lastTs)

/-- Steps 4 and 5 of an edge step follow on it. -/
theorem edgeStep_eq (cfg : Config) (ts : Tick) (c : Channel) :
    edgeStep cfg ts c = ((detected cfg ts c).store cfg (duration cfg ts c.lastTs)).finish cfg := rfl

/-- The cursor after step 4 does not wrap: there is room for 127 samples at most. -/
theorem Channel.store_wcur_toNat {cfg : Config} (hw : cfg.wf = true) (d : Tick) (c : Channel) :
    (c.store cfg d).wcur.toNat = if c.Stores cfg then c.wcur.toNat + 1 else c.wcur.toNat := by
  by_cases h : c.Stores cfg
  · have h127 := Nat.lt_of_lt_of_le h.2 (Config.capacity_le hw)
    rw [Channel.store_of_stores d h, if_pos h, Cursor.toNat_succ h127]
  · rw [Channel.store_of_not_stores d h, if_neg h]

/-- Settles O21: the three steps on the record, each on the record that the step before it leaves. -/
theorem edgeRunsTheFiveSteps : Obligations.EdgeRunsTheFiveSteps := by
  intro s ch ts c hw hc
  rw [← duration_toNat hw]
  intro delta leader ld3 w3 stores w4 completes
  have hlead : leaderShaped s.cfg (duration s.cfg ts c.lastTs) = true ↔ leader := leaderShaped_iff
  have hld : (detected s.cfg ts c).ld = true ↔ ld3 := Channel.detect_ld.trans (or_congr hlead Iff.rfl)
  have hcur : (detected s.cfg ts c).wcur.toNat = w3 :=
    (Channel.detect_wcur_toNat ..).trans (if_congr hlead rfl rfl)
  have hst : (detected s.cfg ts c).Stores s.cfg ↔ stores := and_congr hld (by rw [hcur])
  have hnext := (Channel.store_wcur_toNat hw (duration s.cfg ts c.lastTs) (detected s.cfg ts c)).trans
    (if_congr hst (congrArg (· + 1) hcur) hcur)
  obtain ⟨hbuf, hfc⟩ := Channel.detect_keeps s.cfg (duration s.cfg ts c.lastTs) { c with lastTs := ts }
  obtain ⟨hld4, hfc4⟩ := Channel.store_keeps s.cfg (duration s.cfg ts c.lastTs) (detected s.cfg ts c)
  obtain ⟨t, ht, hch, hout⟩ := exec_edge_has ts hw hc
  refine ⟨t, _, ht, hch, hout, fun hn => ?_, edgeStep_lastTs .., fun h => ?_, fun h => ?_, fun h => ?_, fun h => ?_⟩
  · have e := exec_edge_notSource ts hc hn
    rw [ht] at e
    cases e
    rfl
  · have hwritten : (edgeStep s.cfg ts c).buf = c.buf.write w3 (duration s.cfg ts c.lastTs) := by
      rw [edgeStep_eq, Channel.finish_buf, Channel.store_of_stores _ (hst.2 h), hcur]
      exact congrArg (Memory.write · w3 _) hbuf
    rw [hwritten]
    exact ⟨_, rfl, Memory.read_write_same .., fun i hi => Memory.read_write_other hi⟩
  · rw [edgeStep_eq, Channel.finish_buf, Channel.store_of_not_stores _ (mt hst.1 h)]
    exact hbuf
  · rw [edgeStep_eq, Channel.finish_of_full (hnext.trans h)]
    exact ⟨rfl, rfl, rfl⟩
  · rw [edgeStep_eq, Channel.finish_of_not_full (fun e => h (hnext.symm.trans e))]
    exact ⟨hfc4.trans hfc, hnext, by rw [hld4]; exact hld⟩

/-! ## The transitions of R91 -/

theorem Channel.flagState_eq_idle_or_capturing {c : Channel} :
    c.flagState = .idle ∨ c.flagState = .capturing ↔ c.fc = false := by
  unfold Channel.flagState; split <;> simp [*]

theorem Channel.flagState_eq_complete_or_recapture {c : Channel} :
    c.flagState = .complete ∨ c.flagState = .recapture ↔ c.fc = true := by
  unfold Channel.flagState; split <;> simp [*]

theorem Channel.flagState_eq_idle_or_complete {c : Channel} :
    c.flagState = .idle ∨ c.flagState = .complete ↔ c.ld = false := by
  unfold Channel.flagState; split <;> simp [*]

theorem Channel.flagState_eq_capturing_or_recapture {c : Channel} :
    c.flagState = .capturing ∨ c.flagState = .recapture ↔ c.ld = true := by
  unfold Channel.flagState; split <;> simp [*]

/-- Settles O22: the four cases of an edge step. -/
theorem edgeMakesTheTransitionsOfR91 : Obligations.EdgeMakesTheTransitionsOfR91 := by
  intro s ch ts c hw hc hs hcur d
  refine ⟨edgeStep s.cfg ts c, exec_edge_notSource ts hc (by simp [notSource, hs]), fun hl => ?_, fun hl hd => ?_,
    fun hl hd hmid => ?_, fun hl hd hlast => ?_⟩
  · have e := edgeStep_leader hw hl
    refine ⟨e, fun h => ?_, fun h => ?_⟩
    · rw [e]; simp only [Channel.flagState, Channel.flagState_eq_idle_or_capturing.1 h]
    · rw [e]; simp only [Channel.flagState, Channel.flagState_eq_complete_or_recapture.1 h]
  · have e := edgeStep_ignored (Nat.ne_of_lt hcur) hl hd
    exact ⟨e, by rw [e]; rfl, Channel.flagState_eq_idle_or_complete.2 hd⟩
  · have e := edgeStep_stored hw hl hd hmid
    exact ⟨e, by rw [e]; rfl, Channel.flagState_eq_capturing_or_recapture.2 hd⟩
  · have e := edgeStep_completes hw hl hd hlast
    exact ⟨by rw [e, ← hlast]; rfl, by rw [e]; rfl, Channel.flagState_eq_capturing_or_recapture.2 hd⟩

/-! ## The leader window (R83) -/

/-- Settles O23: the four cases of an edge step, of which the first is the leader's. -/
theorem leaderWindowDecidesWhatStartsACapture : Obligations.LeaderWindowDecidesWhatStartsACapture := by
  refine ⟨fun s ch ts c hw hc _ hcur => ?_, fun d => ?_⟩
  · rw [← duration_toNat hw]
    obtain ⟨t, ht, hch, _⟩ := exec_edge_has ts hw hc
    refine ⟨t, _, ht, hch, fun hlead => ?_, fun hout => ?_⟩
    · rw [edgeStep_leader hw (leaderShaped_iff.2 hlead)]
      exact ⟨rfl, rfl, _, Memory.read_write_same .., rfl⟩
    · rcases edgeStep_cases s.cfg ts c hw hcur with ⟨hl, _⟩ | ⟨_, hd, e⟩ | ⟨_, hd, _, e⟩ | ⟨_, hd, _, e⟩
      · have := leaderShaped_iff.1 hl
        omega
      · rw [e]
        exact ⟨fun h => by simp [hd] at h, fun _ => rfl⟩
      · rw [e]
        exact ⟨fun _ => ⟨hd, rfl⟩, fun hne => Memory.read_write_other (by bv_omega)⟩
      · rw [e]
        exact ⟨fun h => by simp at h, fun hne => Memory.read_write_other (by bv_omega)⟩
  · rw [leaderShaped_iff]
    change 8500 < d.toNat ∧ d.toNat < 9500 ↔ _
    omega

/-! ## What a delta measures (R94) -/

/-- The duration between two timestamps that are `g` ticks apart. -/
theorem duration_of_gap {cfg : Config} (hw : cfg.wf = true) (last : Tick) (g : Nat) :
    (duration cfg (BitVec.ofNat 16 (last.toNat + g)) last).toNat = g % 2 ^ cfg.tsW := by
  obtain ⟨m, hm⟩ : 2 ^ cfg.tsW ∣ 65536 := Nat.pow_dvd_pow 2 (Config.tsW_le hw)
  have hlast := last.isLt
  have hwrap := Nat.mod_add_div (last.toNat + g) 65536
  rw [duration_toNat hw, BitVec.toNat_ofNat]
  calc ((last.toNat + g) % 65536 + 65536 - last.toNat) % 2 ^ cfg.tsW
      = ((last.toNat + g) % 65536 + 65536 - last.toNat + 2 ^ cfg.tsW * (m * ((last.toNat + g) / 65536))) %
          2 ^ cfg.tsW := (Nat.add_mul_mod_self_left ..).symm
    _ = (g + 2 ^ cfg.tsW * m) % 2 ^ cfg.tsW := by rw [← Nat.mul_assoc, ← hm]; congr 1; omega
    _ = g % 2 ^ cfg.tsW := Nat.add_mul_mod_self_left ..

/-- Settles O24: the delta is stored where the capture begins or goes on. -/
theorem storedDeltaIsTheGapModuloTheTimestampRange : Obligations.StoredDeltaIsTheGapModuloTheTimestampRange := by
  intro s ch g c hw hc _ hd hcur ts at0
  obtain ⟨t, ht, hch, _⟩ := exec_edge_has ts hw hc
  have hgap : (duration s.cfg ts c.lastTs).toNat = g % 2 ^ s.cfg.tsW := duration_of_gap hw c.lastTs g
  refine ⟨t, _, duration s.cfg ts c.lastTs, ht, hch, ?_, hgap, ?_⟩
  · rcases edgeStep_cases s.cfg ts c hw hcur with ⟨hl, e⟩ | ⟨_, hd', _⟩ | ⟨hl, _, _, e⟩ | ⟨hl, _, _, e⟩
    · rw [e, if_pos hl]; exact Memory.read_write_same ..
    · simp [hd] at hd'
    · rw [e, if_neg (by simp [at0, hl])]; exact Memory.read_write_same ..
    · rw [e, if_neg (by simp [at0, hl])]; exact Memory.read_write_same ..
  · rw [hgap]
    exact Nat.mod_eq_iff_lt (Nat.two_pow_pos _).ne'

/-! ## The service policies (R90) and the frame (R17, R88, R89) -/

/-- A fallthrough leads to a present channel (R9). -/
theorem fallthrough_target_lt {cfg : Config} {a b : Nat} (hw : cfg.wf = true) (hs : cfg.service = .fallthrough a b) :
    b < cfg.channels := by
  obtain ⟨_, _, _, _, _, _, _, _, hok, _⟩ := (Config.wf_iff cfg).1 hw
  simp only [Config.serviceOk, hs, Bool.and_eq_true, decide_eq_true_eq] at hok
  exact hok.2

/-- Settles O25: the bodies of EDGE under the two policies, each with its answer. -/
theorem fallthroughServicesTheSecondChannel : Obligations.FallthroughServicesTheSecondChannel := by
  intro s s' t1 a b ch ts hw hlen hserv hs' hch h1
  have hsig : s'.cfg.service = .signaledOnly := by rw [hs']
  have hch' : ch.toNat < s'.cfg.channels := by rw [hs']; exact hch
  rw [exec_edge_signaledOnly ts hsig hch'] at h1
  cases h1
  refine ⟨⟨_, by rw [hs']; rfl⟩, fun hne => ?_, fun he => ?_⟩
  · have hn : notSource s.cfg ch.toNat = true := by
      simp [notSource, hserv, mt ChanNo.toNat_inj.1 (Ne.symm hne)]
    rw [exec_edge hch, State.edgeBody_notSource hn, hs']
    rfl
  · subst he
    have hb := fallthrough_target_lt hw hserv
    refine ⟨Config.draw16 s.draws, _, edgeStep s'.cfg (Config.draw16 s.draws) ((s'.edgeStepOn ch.toNat ts).chan b.toNat),
      s.draws + 1, exec_edge_signaledOnly _ hsig ?_, ?_, ⟨?_, ?_⟩, edgeStep_lastTs ..⟩
    · rw [hs']; exact hb
    · rw [exec_edge hch, State.edgeBody_fallthrough hserv, hs']
      rfl
    · rw [hs']; exact hb
    · have hbl : b.toNat < (s'.edgeStepOn ch.toNat ts).chans.length := by
        rw [State.edgeStepOn_chans, List.length_set, hs', hlen]; exact hb
      exact List.getElem?_set_self hbl

/-- Settles O26: EDGE writes its channel's record, the one that its service reaches, and the answer. -/
theorem edgeLeavesEverythingElseAlone : Obligations.EdgeLeavesEverythingElseAlone := by
  intro s ch ts c hw hc
  obtain ⟨t, ht, hch, hout⟩ := exec_edge_has ts hw hc
  obtain ⟨hcfg, hsched, hpres, hlen, _⟩ := exec_keeps ht
  have hsync : t.sync = s.sync := by
    rcases exec_answers ht with ⟨_, e, _⟩ | ⟨hp, _⟩
    · exact e
    · cases hp
  exact ⟨t, _, ht, hout, hch, edgeStep_lastTs .., hcfg, hsync, hpres, hsched, hlen, fun k => exec_edge_other ht⟩

/-! ## A leader restarts the capture (R93) -/

/-- Settles O51: the capture that the leader starts is the record's run, on a channel that no fallthrough reaches. -/
theorem leaderRestartsTheCapture : Obligations.LeaderRestartsTheCapture := by
  intro s c ch is hw hc hn hld hfc ds hone hlen
  obtain ⟨t, ht, _, hch⟩ := runInstrs_has is hc hn
  obtain ⟨hcap, hcur, hbuf, hflag⟩ := chanRun_capture hw hld hone hlen
  exact ⟨t, _, ht, hch, hcap, hflag hfc, hcur, fun i hi => (hbuf i).trans (if_pos hi),
    fun i hi => (hbuf i).trans (if_neg (Nat.not_lt.2 hi))⟩

/-! ## Too few samples (R95, R168) -/

/-- No frame is complete, and `n` more edges cannot complete one: the samples captured by then are fewer than `T`. -/
def Channel.Unfinished (cfg : Config) (n : Nat) (c : Channel) : Prop :=
  c.fc = false ∧ c.wcur.toNat < cfg.samples ∧ c.captured + n < cfg.samples

theorem Channel.captured_of_ld {c : Channel} (h : c.ld = true) : c.captured = c.wcur.toNat := if_pos h

theorem Channel.captured_of_not_ld {c : Channel} (h : c.ld = false) : c.captured = 0 :=
  if_neg (Bool.not_eq_true _ ▸ h)

/-- One of these edges is used up. -/
theorem edgeStep_unfinished {cfg : Config} {c : Channel} {n : Nat} (hw : cfg.wf = true) (ts : Tick)
    (h : c.Unfinished cfg (n + 1)) : (edgeStep cfg ts c).Unfinished cfg n := by
  obtain ⟨hfc, hcur, hfew⟩ := h
  have h127 := Nat.le_trans (Config.samples_le_capacity hw) (Config.capacity_le hw)
  rcases edgeStep_cases cfg ts c hw hcur with ⟨_, e⟩ | ⟨_, hd, e⟩ | ⟨_, hd, hlt, e⟩ | ⟨_, hd, hlast, _⟩
  · rw [e]
    refine ⟨hfc, ?_, ?_⟩
    · rw [Cursor.toNat_one]; omega
    · rw [Channel.captured_of_ld rfl, Cursor.toNat_one]; omega
  · rw [e]
    exact ⟨hfc, hcur, Nat.lt_of_succ_lt hfew⟩
  · rw [Channel.captured_of_ld hd] at hfew
    have hsucc := Cursor.toNat_succ (w := c.wcur) (by omega)
    rw [e]
    refine ⟨hfc, hsucc ▸ hlt, ?_⟩
    simp only [Channel.captured, hd, if_true, hsucc]
    omega
  · rw [Channel.captured_of_ld hd] at hfew
    omega

/-- An operation that is no EDGE on the channel uses up none. -/
theorem chanEffect_unfinished {cfg : Config} {ch : ChanNo} {i : Instr} {c : Channel} {n : Nat}
    (he : ∀ ts, i ≠ .edge ch ts) (h : c.Unfinished cfg n) : (chanEffect cfg ch.toNat i c).Unfinished cfg n := by
  by_cases hl : i = .clrld ch
  · obtain ⟨hfc, hcur, hfew⟩ := h
    rw [hl, chanEffect, if_pos rfl]
    refine ⟨hfc, hcur, ?_⟩
    rw [Channel.captured_of_not_ld rfl]; omega
  · rcases chanEffect_other (cfg := cfg) c he hl with e | ⟨_, e⟩ <;> rw [e]
    · exact h
    · exact ⟨rfl, h.2⟩

theorem chanRun_unfinished {cfg : Config} {ch : ChanNo} {is : List Instr} {c : Channel} {n : Nat} (hw : cfg.wf = true)
    (h : c.Unfinished cfg ((stampsOn ch is).length + n)) : (chanRun cfg ch.toNat is c).Unfinished cfg n := by
  induction is generalizing c with
  | nil => simpa [stampsOn, chanRun] using h
  | cons i is ih =>
    rcases edgeOn_or_not ch i with ⟨ts, rfl⟩ | he
    · rw [chanRun, chanEffect_edge]
      refine ih (edgeStep_unfinished hw ts ?_)
      simpa [stampsOn, Nat.add_right_comm] using h
    · rw [stampsOn_cons_other is he] at h
      exact ih (chanEffect_unfinished he h)

/-- Settles O52: each EDGE captures one sample at most, and no other operation captures any. -/
theorem tooFewSamplesNeverComplete : Obligations.TooFewSamplesNeverComplete := by
  intro s c ch is hw hc hn hfc hcur hfew
  obtain ⟨t, ht, _, hch⟩ := runInstrs_has is hc hn
  obtain ⟨hfc', _⟩ := chanRun_unfinished (n := 0) hw ⟨hfc, hcur, hfew⟩
  exact ⟨t, _, ht, hch, hfc'⟩

/-! ## The completing sample, and what follows it (R92, R96) -/

/-- A sequence of operations parts after any of its EDGEs on a channel. -/
theorem exists_split_after_stamp {ch : ChanNo} {is : List Instr} {n : Nat} (h : n < (stampsOn ch is).length) :
    ∃ xs ts ys, is = xs ++ [Instr.edge ch ts] ++ ys ∧ (stampsOn ch (xs ++ [Instr.edge ch ts])).length = n + 1 := by
  induction is generalizing n with
  | nil => simp [stampsOn] at h
  | cons i is ih =>
    rcases edgeOn_or_not ch i with ⟨ts, rfl⟩ | he
    · cases n with
      | zero => exact ⟨[], ts, is, rfl, by simp [stampsOn]⟩
      | succ n =>
        obtain ⟨xs, us, ys, rfl, hlen⟩ := ih (n := n) (by simpa [stampsOn] using h)
        exact ⟨.edge ch ts :: xs, us, ys, rfl, by simp [stampsOn, hlen]⟩
    · rw [stampsOn_cons_other is he] at h
      obtain ⟨xs, us, ys, rfl, hlen⟩ := ih h
      exact ⟨i :: xs, us, ys, rfl, by rw [List.cons_append, stampsOn_cons_other _ he, hlen]⟩

theorem deltasOn_length (cfg : Config) (ch : ChanNo) (last : Tick) (is : List Instr) :
    (deltasOn cfg ch last is).length = (stampsOn ch is).length := deltasFrom_length ..

/-- The last EDGE of a sequence is measured from the timestamp that the operations before it left (R82, R84). -/
theorem deltasOn_snoc_edge (cfg : Config) (ch : ChanNo) (c : Channel) (is : List Instr) (ts : Tick) :
    deltasOn cfg ch c.lastTs (is ++ [Instr.edge ch ts]) =
      deltasOn cfg ch c.lastTs is ++ [duration cfg ts (chanRun cfg ch.toNat is c).lastTs] := by
  rw [deltasOn_append, deltasOn_cons_edge]
  rfl

/-- A capture may be cut after any of its deltas: no later one is leader-shaped. -/
theorem oneCapture_append {cfg : Config} {ds es : List Tick} (h : ds ≠ []) :
    oneCapture cfg (ds ++ es) = true ↔ oneCapture cfg ds = true ∧ noLeader cfg es = true := by
  cases ds with
  | nil => exact absurd rfl h
  | cons d ds => simp [oneCapture, noLeader, and_assoc]

theorem noLeader_singleton {cfg : Config} {d : Tick} : noLeader cfg [d] = true ↔ leaderShaped cfg d = false := by
  simp [noLeader]

/-- The `T`-th delta of a capture completes the frame, whatever the channel was doing before its leader (R87). -/
theorem chanRun_completes {cfg : Config} {ch : ChanNo} {is : List Instr} {ts : Tick} {c : Channel} (hw : cfg.wf = true)
    (hno : .clrld ch ∉ is) (hone : oneCapture cfg (deltasOn cfg ch c.lastTs (is ++ [Instr.edge ch ts])) = true)
    (hlen : (deltasOn cfg ch c.lastTs (is ++ [Instr.edge ch ts])).length = cfg.samples) :
    (chanRun cfg ch.toNat (is ++ [Instr.edge ch ts]) c).fc = true ∧
    (chanRun cfg ch.toNat (is ++ [Instr.edge ch ts]) c).ld = false ∧
    (chanRun cfg ch.toNat (is ++ [Instr.edge ch ts]) c).wcur = 0 ∧
    ∀ i, (chanRun cfg ch.toNat (is ++ [Instr.edge ch ts]) c).buf.read i =
      if i < cfg.samples then (deltasOn cfg ch c.lastTs (is ++ [Instr.edge ch ts]))[i]? else c.buf.read i := by
  have hT := Config.two_le_samples hw
  rw [deltasOn_snoc_edge] at hone hlen ⊢
  rw [List.length_append, List.length_singleton] at hlen
  obtain ⟨hfirst, hlast⟩ := (oneCapture_append (List.ne_nil_of_length_pos (by omega))).1 hone
  obtain ⟨hld, hcur, hbuf, _⟩ := chanRun_capture hw hno hfirst (by omega)
  have hrec := edgeStep_completes hw (noLeader_singleton.1 hlast) hld (by omega)
  rw [chanRun_append, chanRun, chanEffect_edge, chanRun, hrec]
  refine ⟨rfl, rfl, rfl, fun i => ?_⟩
  rw [Memory.read_write, hbuf, hcur, List.getElem?_append]
  rcases Nat.lt_trichotomy i (deltasOn cfg ch c.lastTs is).length with hi | rfl | hi
  · rw [if_neg (Nat.ne_of_lt hi), if_pos hi, if_pos (by omega), if_pos hi]
  · rw [if_pos rfl, if_pos (by omega), if_neg (Nat.lt_irrefl _), Nat.sub_self, List.getElem?_cons_zero]
  · rw [if_neg (Nat.ne_of_gt hi), if_neg (by omega), if_neg (by omega)]

/-- The timestamp is the last EDGE's, if there was one (R84). -/
theorem getLast?_stampsOn {cfg : Config} {ch : ChanNo} {is : List Instr} (c : Channel) (h : stampsOn ch is ≠ []) :
    (stampsOn ch is).getLast? = some (chanRun cfg ch.toNat is c).lastTs := by
  rw [chanRun_lastTs, List.getLast?_eq_some_getLast h, Option.getD_some]

/-- Settles O53: the `T`-th sample completes the frame, and after it no delta is stored, as no leader comes. -/
theorem oversizedTraceCompletesAtItsLastSample : Obligations.OversizedTraceCompletesAtItsLastSample := by
  intro s c ch is hw hc hn hld hfc ds hone hlen
  have hT := Config.two_le_samples hw
  have hstamps : s.cfg.samples ≤ (stampsOn ch is).length := hlen.trans_eq (deltasOn_length ..)
  obtain ⟨t, ht, _, hch⟩ := runInstrs_has is hc hn
  have hlast := getLast?_stampsOn (cfg := s.cfg) c (List.ne_nil_of_length_pos (by omega : 0 < (stampsOn ch is).length))
  obtain ⟨xs, ts, ys, rfl, hxs⟩ := exists_split_after_stamp (by omega : s.cfg.samples - 1 < (stampsOn ch is).length)
  have hds : ds = _ ++ _ := deltasOn_append s.cfg ch c (xs ++ [Instr.edge ch ts]) ys
  have hlenT : (deltasOn s.cfg ch c.lastTs (xs ++ [Instr.edge ch ts])).length = s.cfg.samples := by
    rw [deltasOn_length]; omega
  rw [hds] at hone ⊢
  obtain ⟨hframe, hrest⟩ := (oneCapture_append (List.ne_nil_of_length_pos (by omega))).1 hone
  obtain ⟨hfull, hidle, hzero, hbuf⟩ := chanRun_completes hw (fun hm => hld (by simp [hm])) hframe hlenT
  have hne : (chanRun s.cfg ch.toNat (xs ++ [Instr.edge ch ts]) c).wcur.toNat ≠ s.cfg.samples := by
    rw [hzero]; exact Nat.ne_of_lt (by simp; omega)
  obtain ⟨hidle', hcur', hbuf', hfull', _⟩ := chanRun_quiet hrest hidle hne
  rw [← chanRun_append] at hidle' hcur' hbuf' hfull'
  refine ⟨t, _, ht, hch, (hfull' fun hm => hfc (by simp [hm])).trans hfull, hidle', hcur'.trans hzero, hlast,
    fun i hi => ?_, fun i hi => ?_⟩
  · rw [hbuf', hbuf, if_pos hi, List.getElem?_append_left (by omega)]
  · rw [hbuf', hbuf, if_neg (Nat.not_lt.2 hi)]

/-! ## Waiting (R5, R95, R143) -/

theorem step_drained {s : State} (hs : s.schedule = []) (hp : s.presented = []) (hy : s.sync = .idle) :
    step s = .next { s with output := none } := by
  rw [step_idle ((nextEvent_of_drained hs).trans (pendingEvent_eq_none.2 ⟨hp, hy⟩)), State.advance, hs]
  rfl

/-- The state that the first idle step leaves is idle too, and delivers nothing. -/
theorem core_run_drained {s : State} (hs : s.schedule = []) (hp : s.presented = []) (hy : s.sync = .idle) (n : Nat) :
    Host.Core.run core (n + 1) s = .next { s with output := none } := by
  induction n generalizing s with
  | zero => exact core_run_one (step_drained hs hp hy)
  | succ n ih =>
    rw [core_run_succ (step_drained hs hp hy)]
    exact ih hs hp hy

/-- Settles O12: with nothing to come and nothing pending, each step is an idle step. -/
theorem waitingChangesNothing : Obligations.WaitingChangesNothing := by
  intro s n hs hp hy hn
  obtain ⟨n, rfl⟩ := Nat.exists_eq_succ_of_ne_zero hn.ne'
  exact core_run_drained hs hp hy n

end Sys2Proof.Machine
end

section
/-! PROOFS. DECODE and RDSAMP (41_decode.md): what each answers from its word on (R100 to R104), what a DECODE reads
(R102), that it agrees with RDSAMP reads of the spaces (R106), and the value of a whole frame (R107). -/

namespace Sys2Proof.Machine

/-! ## RDSAMP (R104) -/

/-- The word of a command that passes the range checks decodes to it on the command's own port (R64, R69). -/
theorem decodeCmd_encode {cfg : Config} {i : Instr} (h : rangeReject cfg i = none) :
    decodeCmd cfg i.port (encode i) = .ok i :=
  (encodedCommandDecodesToItself cfg i (rangeReject_none_iff.1 h)).1

theorem encode_rdsamp (ch : ChanNo) (idx : BitVec 8) :
    encode (.rdsamp ch idx) = BitVec.ofNat 32 (0x40000000 + ch.toNat * 0x1000000 + idx.toNat * 0x10000) := by
  simp [encode, fieldsWord_eq_ofNat, Opcode.code]

theorem encode_decode (ch : ChanNo) : encode (.decode ch) = BitVec.ofNat 32 (0x50000000 + ch.toNat * 0x1000000) := by
  simp [encode, fieldsWord_eq_ofNat, Opcode.code]

/-- RDSAMP of a written entry (R104). -/
theorem exec_rdsamp_written {s : State} {ch : ChanNo} {idx : BitVec 8} {c : Channel} {x : Tick} (hc : s.Has ch c)
    (hi : idx.toNat < s.cfg.capacity) (hx : c.buf.read idx.toNat = some x) :
    exec (.rdsamp ch idx) s = .next { s with sync := .responded { status := 0, data := x.setWidth 32 } } := by
  rw [exec_rdsamp hc.1 hi, State.bufRead_written (by rw [State.chan_eq hc.2, hx])]
  rfl

/-- RDSAMP of an entry not written since reset (R23, R104). -/
theorem exec_rdsamp_unwritten {s : State} {ch : ChanNo} {idx : BitVec 8} {c : Channel} (hc : s.Has ch c)
    (hi : idx.toNat < s.cfg.capacity) (hx : c.buf.read idx.toNat = none) :
    exec (.rdsamp ch idx) s = .next { s with
      sync := .responded { status := 0, data := (Config.draw16 s.draws).setWidth 32 }, draws := s.draws + 1 } := by
  rw [exec_rdsamp hc.1 hi, State.bufRead_unwritten (by rw [State.chan_eq hc.2, hx])]
  rfl

/-- Settles O30: the word is the command's encoding, and the entry is written or it is not. -/
theorem rdsampAnswersTheSample : Obligations.RdsampAnswersTheSample := by
  intro s ch idx c hc hi
  have hr : rangeReject s.cfg (.rdsamp ch idx) = none := rangeReject_none_of hc.1 (decide_eq_true hi)
  exact ⟨encode_rdsamp ch idx ▸ decodeCmd_encode hr, fun _ => exec_rdsamp_written hc hi, exec_rdsamp_unwritten hc hi⟩

/-! ## The value that DECODE answers (R100, R101) -/

/-- DECODE's loop gives the bits of the spaces. -/
theorem State.mapBits_decodesBuffer (s : State) (ch : Nat) :
    DecodesBuffer s.cfg (s.chan ch).buf (s.mapBits ch s.cfg.nbits).1 := by
  refine fun b hb => ⟨fun hn x hx => ?_, fun hn => ?_⟩
  · exact State.getLsbD_mapBits_written hb hn (by rw [spaceIndex_eq, hx])
  · simp [State.getLsbD_mapBits _ _ _ _ hb, Nat.not_lt.2 hn]

/-- DECODE answers the bits of the spaces, and uses up free values at most. -/
theorem exec_decode_answers {s : State} {ch : ChanNo} {c : Channel} (hc : s.Has ch c) :
    ∃ (v : Word) (draws : Nat),
      exec (.decode ch) s = .next { s with sync := .responded { status := 0, data := v }, draws := draws } ∧
      DecodesBuffer s.cfg c.buf v := by
  refine ⟨(s.mapBits ch.toNat s.cfg.nbits).1, (s.mapBits ch.toNat s.cfg.nbits).2.draws, ?_, ?_⟩
  · rw [exec_decode hc.1, State.mapBits_state]
    rfl
  · rw [← State.chan_eq hc.2]
    exact State.mapBits_decodesBuffer s ch.toNat

/-- Settles O31: the word is the command's encoding, and the loop gives the bits of the spaces. -/
theorem decodeAnswersTheSpaceBits : Obligations.DecodeAnswersTheSpaceBits := by
  intro s ch c hc
  have hr : rangeReject s.cfg (.decode ch) = none := rangeReject_none_of hc.1 rfl
  exact ⟨encode_decode ch ▸ decodeCmd_encode hr, exec_decode_answers hc⟩

/-! ## What DECODE reads (R102) -/

/-- The unwritten spaces are counted from the spaces alone. -/
theorem Memory.unwrittenSpaces_congr {m m' : Memory} {n : Nat}
    (h : ∀ b, b < n → m.read (spaceIndex b) = m'.read (spaceIndex b)) : m.unwrittenSpaces n = m'.unwrittenSpaces n := by
  induction n with
  | zero => rfl
  | succ b ih =>
    rw [Memory.unwrittenSpaces_succ, Memory.unwrittenSpaces_succ, ih fun k hk => h k (Nat.lt_succ_of_lt hk),
      h b (Nat.lt_succ_self b)]

/-- DECODE's loop reads the threshold, the spaces, and the free values from the next one on. -/
theorem State.mapBits_value_congr {s s' : State} {ch n : Nat} (hth : s.cfg.bitTh = s'.cfg.bitTh) (hd : s.draws = s'.draws)
    (hbuf : ∀ b, b < n → (s.chan ch).buf.read (spaceIndex b) = (s'.chan ch).buf.read (spaceIndex b)) :
    (s.mapBits ch n).1 = (s'.mapBits ch n).1 := by
  have hbit : ∀ x, bitOf s.cfg x = bitOf s'.cfg x := fun x => by rw [bitOf, bitOf, hth]
  apply BitVec.eq_of_getLsbD_eq
  intro k hk
  by_cases hn : k < n
  · have hk' := hbuf k hn
    cases hr : (s.chan ch).buf.read (spaceIndex k) with
    | some x =>
      rw [State.getLsbD_mapBits_written hk hn hr, State.getLsbD_mapBits_written hk hn (hk' ▸ hr), hbit]
    | none =>
      rw [State.getLsbD_mapBits_unwritten hk hn hr, State.getLsbD_mapBits_unwritten hk hn (hk' ▸ hr), hbit, hd,
        Memory.unwrittenSpaces_congr fun b hb => hbuf b (Nat.lt_trans hb hn)]
  · simp [State.getLsbD_mapBits _ _ _ _ hk, hn]

/-- Settles O36: the response is the loop's value, and the loop reads nothing else. -/
theorem decodeDependsOnTheSpacesAlone : Obligations.DecodeDependsOnTheSpacesAlone := by
  rintro s s' t t' ch c c' ⟨hch, hrec⟩ ⟨hch', hrec'⟩ hth hnb hd hbuf ht ht'
  obtain rfl := Host.Outcome.next.inj ((exec_decode hch).symm.trans ht)
  obtain rfl := Host.Outcome.next.inj ((exec_decode hch').symm.trans ht')
  have hval : (s.mapBits ch.toNat s.cfg.nbits).1 = (s'.mapBits ch.toNat s.cfg.nbits).1 :=
    State.mapBits_value_congr hth hd fun b hb => by
      rw [State.chan_eq hrec, State.chan_eq hrec', spaceIndex_eq, hbuf b hb]
  rw [State.respond_consumer_sync, State.respond_consumer_sync, hval, hnb]

/-! ## A buffer between edge steps (R88, R103, R105) -/

/-- An operation that is no EDGE on the channel leaves its buffer. -/
theorem chanEffect_buf {cfg : Config} {ch : ChanNo} {i : Instr} (c : Channel) (he : ∀ ts, i ≠ .edge ch ts) :
    (chanEffect cfg ch.toNat i c).buf = c.buf := by
  by_cases hl : i = .clrld ch
  · subst hl
    simp [chanEffect, Channel.clearLd]
  · rcases chanEffect_other (cfg := cfg) c he hl with e | ⟨_, e⟩ <;> rw [e]
    rfl

theorem chanRun_buf {cfg : Config} {ch : ChanNo} {is : List Instr} (c : Channel) (h : stampsOn ch is = []) :
    (chanRun cfg ch.toNat is c).buf = c.buf := by
  induction is generalizing c with
  | nil => rfl
  | cons i is ih =>
    rcases edgeOn_or_not ch i with ⟨ts, rfl⟩ | he
    · simp [stampsOn] at h
    · rw [stampsOn_cons_other is he] at h
      rw [chanRun, ih _ h, chanEffect_buf c he]

/-- The index of a space fits RDSAMP's index field and the buffer (R8, R104). -/
theorem spaceOperand_toNat {cfg : Config} {b : Nat} (hw : cfg.wf = true) (hb : b < cfg.nbits) :
    (BitVec.ofNat 8 (3 + 2 * b)).toNat = 3 + 2 * b ∧ 3 + 2 * b < cfg.capacity := by
  have hlast := Config.lastSpace_lt_samples hw
  have hTC := Config.samples_le_capacity hw
  have h127 := Config.capacity_le hw
  exact ⟨Nat.mod_eq_of_lt (by omega), by omega⟩

/-- Settles O37: the operations in between leave the buffer, so the RDSAMP answers the sample that decides the bit. -/
theorem decodeAgreesWithSampleReads : Obligations.DecodeAgreesWithSampleReads := by
  intro s u t t' ch c is b x v r hw hc hn hst hu hb hx ht hr ht' hv
  obtain ⟨_, hu', hcfg, hch⟩ := runInstrs_has is hc hn
  obtain rfl := Host.Outcome.next.inj (hu'.symm.trans hu)
  obtain ⟨hidx, hcap⟩ := spaceOperand_toNat hw hb
  have hread := exec_rdsamp_written hch (by rwa [hidx, hcfg]) (by rw [chanRun_buf c hst, hidx, hx])
  obtain rfl := Host.Outcome.next.inj (hread.symm.trans ht)
  obtain ⟨w, draws, hdec, hbits⟩ := exec_decode_answers hc
  obtain rfl := Host.Outcome.next.inj (hdec.symm.trans ht')
  obtain rfl : x.setWidth 32 = r := by simpa using hr
  obtain rfl : w = v := by simpa using hv
  rw [BitVec.toNat_setWidth_of_le (by decide)]
  have hb32 := Nat.lt_of_lt_of_le hb (Config.nbits_le hw)
  exact (hbits b hb32).1 hb x hx

/-! ## The value of a frame (R107) -/

/-- A buffer whose spaces are those of a whole frame decodes to the value that the frame spells: every space of a bit
is among the `T` deltas, so each bit is decided. -/
theorem eq_of_decodesFrame {cfg : Config} {ds : List Tick} {m : Memory} {v V : Word} (hw : cfg.wf = true)
    (hlen : ds.length = cfg.samples) (hm : ∀ i, i < cfg.samples → m.read i = ds[i]?) (hv : DecodesBuffer cfg m v)
    (hV : DecodesDeltas cfg ds V) : v = V := by
  have hlast := Config.lastSpace_lt_samples hw
  apply BitVec.eq_of_getLsbD_eq
  intro b hb
  obtain ⟨hbit, hzero⟩ := hv b hb
  obtain ⟨hbit', hzero'⟩ := hV b hb
  rcases Nat.lt_or_ge b cfg.nbits with hn | hn
  · have hspace : ds[3 + 2 * b]? = some _ := List.getElem?_eq_getElem (by omega)
    rw [hbit hn _ ((hm _ (by omega)).trans hspace), hbit' hn _ hspace]
  · rw [hzero hn, hzero' hn]

/-- Settles O50: the `T`-th delta completes the frame, the operations after it leave the buffer, and there DECODE finds
the spaces that spell the value. -/
theorem frameDecodesToTheValueItSpells : Obligations.FrameDecodesToTheValueItSpells := by
  intro s c ch is ts V hw hc hn hno ds hlen hone hV
  obtain ⟨t, ht, hcfg, hch⟩ := runInstrs_has (is ++ [.edge ch ts]) hc hn
  obtain ⟨hfc, hld, hcur, hbuf⟩ := chanRun_completes hw hno hone hlen
  refine ⟨t, _, ht, hch, hfc, hld, hcur, fun js hjs => ?_⟩
  obtain ⟨u, hu, hcfg', hch'⟩ := runInstrs_has js hch (hcfg ▸ hn)
  obtain ⟨v, draws, hdec, hv⟩ := exec_decode_answers hch'
  rw [chanRun_buf _ hjs, hcfg', hcfg] at hv
  obtain rfl := eq_of_decodesFrame hw hlen (fun i hi => (hbuf i).trans (if_pos hi)) hv hV
  exact ⟨_, by rw [runInstrs_append_next hu, runInstrs_cons_next hdec, runInstrs_nil], rfl⟩

end Sys2Proof.Machine
end

section
/-! PROOFS. The consumer's flag operations (42_consumer.md): what RDFC, RDLD, CLRFC and CLRLD answer from their words on
(R110 to R113), what no consumer operation reads or writes (R114), the transitions of the flag state (R91, R115, R150),
and DISPATCH (R118, R119). -/

namespace Sys2Proof.Machine

/-! ## The four flag operations (R110 to R113) -/

/-- The word of a consumer operation with no operand but its channel decodes to it (R60, R76): `n` is the operation's
code, shifted to its place. -/
theorem decodeCmd_chanWord {cfg : Config} {i : Instr} {o : Opcode} {n : Nat}
    (hw : encode i = fieldsWord o.code i.chan 0 0) (hcode : o.code.toNat * 0x10000000 = n)
    (hp : i.port = .consumer) (hr : rangeReject cfg i = none) :
    decodeCmd cfg .consumer (BitVec.ofNat 32 (n + i.chan.toNat * 0x1000000)) = .ok i := by
  have hdec := decodeCmd_encode hr
  rw [hp, hw, fieldsWord_eq_ofNat, hcode] at hdec
  simpa using hdec

theorem exec_rdfc_has {s : State} {ch : ChanNo} {c : Channel} (hc : s.Has ch c) :
    exec (.rdfc ch) s = .next { s with sync := .responded { status := 0, data := zextFlag c.fc } } := by
  rw [exec_rdfc hc.1, State.chan_eq hc.2]
  rfl

theorem exec_rdld_has {s : State} {ch : ChanNo} {c : Channel} (hc : s.Has ch c) :
    exec (.rdld ch) s = .next { s with sync := .responded { status := 0, data := zextFlag c.ld } } := by
  rw [exec_rdld hc.1, State.chan_eq hc.2]
  rfl

theorem exec_clrfc_has {s : State} {ch : ChanNo} {c : Channel} (hc : s.Has ch c) :
    exec (.clrfc ch) s = .next { s with
      chans := s.chans.set ch.toNat c.clearFc, sync := .responded { status := 0, data := 0 } } := by
  rw [exec_clrfc hc.1, State.chan_eq hc.2]
  rfl

theorem exec_clrld_has {s : State} {ch : ChanNo} {c : Channel} (hc : s.Has ch c) :
    exec (.clrld ch) s = .next { s with
      chans := s.chans.set ch.toNat c.clearLd, sync := .responded { status := 0, data := 0 } } := by
  rw [exec_clrld hc.1, State.chan_eq hc.2]
  rfl

/-- The record written for a present channel is the one found there. -/
theorem getElem?_set_has {s : State} {ch : ChanNo} {c : Channel} (hc : s.Has ch c) (c' : Channel) :
    (s.chans.set ch.toNat c')[ch.toNat]? = some c' :=
  List.getElem?_set_self (List.getElem?_eq_some_iff.1 hc.2).1

/-- Settles O28: the word is the command's encoding, and the answer is the flag. -/
theorem rdfcAnswersFrameComplete : Obligations.RdfcAnswersFrameComplete := fun _ ch _ hc =>
  ⟨decodeCmd_chanWord (i := .rdfc ch) (o := .rdfc) rfl rfl rfl (rangeReject_none_of hc.1 rfl), exec_rdfc_has hc⟩

/-- Settles O29: the word is the command's encoding, and the answer is the flag. -/
theorem rdldAnswersLeaderDetected : Obligations.RdldAnswersLeaderDetected := fun _ ch _ hc =>
  ⟨decodeCmd_chanWord (i := .rdld ch) (o := .rdld) rfl rfl rfl (rangeReject_none_of hc.1 rfl), exec_rdld_has hc⟩

/-- Settles O33: the word is the command's encoding, and the record is written back without `fc`. -/
theorem clrfcClearsFrameComplete : Obligations.ClrfcClearsFrameComplete := fun _ ch _ hc =>
  ⟨decodeCmd_chanWord (i := .clrfc ch) (o := .clrfc) rfl rfl rfl (rangeReject_none_of hc.1 rfl), exec_clrfc_has hc⟩

/-- Settles O34: the word is the command's encoding, and the record is written back without `ld`. -/
theorem clrldClearsLeaderDetected : Obligations.ClrldClearsLeaderDetected := fun _ ch _ hc =>
  ⟨decodeCmd_chanWord (i := .clrld ch) (o := .clrld) rfl rfl rfl (rangeReject_none_of hc.1 rfl), exec_clrld_has hc⟩

/-! ## The transitions of the flag state (R91, R115, R150) -/

/-- CLRFC's column of R115. -/
def FlagState.clearFc : FlagState → FlagState
  | .idle => .idle
  | .capturing => .capturing
  | .complete => .idle
  | .recapture => .capturing

/-- CLRLD's column of R115. -/
def FlagState.clearLd : FlagState → FlagState
  | .idle => .idle
  | .capturing => .idle
  | .complete => .complete
  | .recapture => .complete

theorem Channel.flagState_clearFc (c : Channel) : c.clearFc.flagState = c.flagState.clearFc := by
  obtain ⟨_, _, _, ld, fc⟩ := c
  cases ld <;> cases fc <;> rfl

theorem Channel.flagState_clearLd (c : Channel) : c.clearLd.flagState = c.flagState.clearLd := by
  obtain ⟨_, _, _, ld, fc⟩ := c
  cases ld <;> cases fc <;> rfl

/-- Settles O39: the two columns of the table, on the record that each clear writes. -/
theorem clearsMakeTheTransitionsOfR115 : Obligations.ClearsMakeTheTransitionsOfR115 := by
  intro s ch c hc
  refine ⟨_, c.clearFc, _, c.clearLd, exec_clrfc_has hc, ⟨hc.1, getElem?_set_has hc _⟩, exec_clrld_has hc,
    ⟨hc.1, getElem?_set_has hc _⟩, rfl, rfl, rfl, rfl, ?_⟩
  rw [Channel.flagState_clearFc, Channel.flagState_clearLd]
  refine ⟨fun h => ?_, fun h => ?_, fun h => ?_, fun h => ?_⟩ <;> rw [h] <;> exact ⟨rfl, rfl⟩

/-- The transitions that an edge step makes (R91). -/
theorem edgeStep_flagState {cfg : Config} {c : Channel} (ts : Tick) (hw : cfg.wf = true)
    (hcur : c.wcur.toNat < cfg.samples) (hne : (edgeStep cfg ts c).flagState ≠ c.flagState) :
    (c.flagState, (edgeStep cfg ts c).flagState) ∈
      [(.idle, .capturing), (.capturing, .complete), (.complete, .recapture), (.recapture, FlagState.complete)] := by
  rcases edgeStep_cases cfg ts c hw hcur with ⟨_, e⟩ | ⟨_, _, e⟩ | ⟨_, _, _, e⟩ | ⟨_, hd, _, e⟩ <;> rw [e] at hne ⊢
  · obtain ⟨_, _, _, ld, fc⟩ := c
    cases ld <;> cases fc <;> simp [Channel.flagState] at hne ⊢
  · exact absurd rfl hne
  · exact absurd rfl hne
  · obtain ⟨_, _, _, ld, fc⟩ := c
    subst hd
    cases fc <;> simp [Channel.flagState]

theorem FlagState.clearFc_moves {f : FlagState} (h : f.clearFc ≠ f) :
    (f, f.clearFc) ∈ [(.complete, .idle), (.recapture, FlagState.capturing)] := by
  revert h; cases f <;> decide

theorem FlagState.clearLd_moves {f : FlagState} (h : f.clearLd ≠ f) :
    (f, f.clearLd) ∈ [(.capturing, .idle), (.recapture, FlagState.complete)] := by
  revert h; cases f <;> decide

/-- Settles O44: each thing that a step can do to a record has its table, or leads to IDLE. -/
theorem flagStateMovesOnlyAlongTheTransitions : Obligations.FlagStateMovesOnlyAlongTheTransitions := by
  intro s t k c c' hw hcur h hc hc' hne byEdge byClear move
  rcases step_record h hc hc' with rfl | ⟨hs, ts, rfl⟩ | ⟨hr, he⟩ | ⟨hp, rfl⟩ | ⟨hp, rfl⟩
  · exact absurd rfl hne
  · exact .inl ⟨hs, rfl⟩
  · obtain ⟨ts, rfl⟩ := he.edgeStep_of_wf hw
    exact .inr (.inl ⟨hr, edgeStep_flagState ts hw hcur hne⟩)
  · dsimp only [move]
    rw [Channel.flagState_clearFc] at hne ⊢
    exact .inr (.inr (.inl ⟨hp, FlagState.clearFc_moves hne⟩))
  · dsimp only [move]
    rw [Channel.flagState_clearLd] at hne ⊢
    exact .inr (.inr (.inr ⟨hp, FlagState.clearLd_moves hne⟩))

/-! ## Timestamps and cursors (R114) -/

/-- A record with another timestamp and another cursor. -/
def Channel.restamp (x : Tick) (y : Cursor) (c : Channel) : Channel := { c with lastTs := x, wcur := y }

/-- The state with the timestamp and the cursor of every channel replaced. -/
def State.restamp (x : Tick) (y : Cursor) (s : State) : State := { s with chans := s.chans.map (Channel.restamp x y) }

section
variable (x : Tick) (y : Cursor)

theorem State.answer_restamp (s : State) (p : Port) (r : Response) :
    (s.restamp x y).answer p r = (s.answer p r).restamp x y := by
  cases p <;> rfl

/-- The record that is found has its buffer and its flags, whether the channel is present or not. -/
theorem State.chan_restamp (s : State) (k : Nat) :
    ((s.restamp x y).chan k).buf = (s.chan k).buf ∧ ((s.restamp x y).chan k).ld = (s.chan k).ld ∧
    ((s.restamp x y).chan k).fc = (s.chan k).fc := by
  unfold State.chan State.restamp
  rw [List.getD_eq_getElem?_getD, List.getD_eq_getElem?_getD, List.getElem?_map]
  cases s.chans[k]? <;> exact ⟨rfl, rfl, rfl⟩

/-- Writing back a record changed by a function that neither reads nor writes the two fields. -/
theorem State.setChan_restamp (s : State) (k : Nat) {f : Channel → Channel}
    (hf : ∀ c, f (c.restamp x y) = (f c).restamp x y) :
    (s.restamp x y).setChan k (f ((s.restamp x y).chan k)) = (s.setChan k (f (s.chan k))).restamp x y := by
  have hchans : ((s.restamp x y).setChan k (f ((s.restamp x y).chan k))).chans =
      (s.setChan k (f (s.chan k))).chans.map (Channel.restamp x y) := by
    apply List.ext_getElem?
    intro j
    rw [State.setChan_getElem? _ k j f, List.getElem?_map, State.setChan_getElem? _ k j f]
    simp only [State.restamp, List.getElem?_map]
    cases s.chans[j]? <;> split <;> simp [hf]
  exact congrArg (fun l => { s with chans := l }) hchans

theorem State.bufRead_restamp (s : State) (k i : Nat) :
    (s.restamp x y).bufRead k i = ((s.bufRead k i).1, (s.bufRead k i).2.restamp x y) := by
  obtain ⟨hbuf, _, _⟩ := State.chan_restamp x y s k
  cases hr : (s.chan k).buf.read i with
  | some v => rw [State.bufRead_written hr, State.bufRead_written (hbuf ▸ hr)]
  | none => rw [State.bufRead_unwritten hr, State.bufRead_unwritten (hbuf ▸ hr)]; rfl

theorem State.mapBits_restamp (s : State) (k n : Nat) :
    (s.restamp x y).mapBits k n = ((s.mapBits k n).1, (s.mapBits k n).2.restamp x y) := by
  induction n with
  | zero => rfl
  | succ b ih => rw [State.mapBits_succ, ih, State.bufRead_restamp]; rfl

/-- No consumer operation reads a timestamp or a cursor. -/
theorem effect_restamp {i : Instr} (hi : i.port = .consumer) (s : State) :
    effect i (s.restamp x y) = (effect i s).restamp x y := by
  obtain ⟨_, hld, hfc⟩ := State.chan_restamp x y s i.chan.toNat
  cases i <;> dsimp only [Instr.chan, effect] at hld hfc ⊢
  case edge ch ts => cases hi
  case rdfc ch => rw [hfc]; rfl
  case rdld ch => rw [hld]; rfl
  case rdsamp ch idx => rw [State.bufRead_restamp]; rfl
  case decode ch =>
    have hcfg : (s.restamp x y).cfg = s.cfg := rfl
    rw [hcfg, State.mapBits_restamp]; rfl
  case clrfc ch => rw [State.setChan_restamp x y s _ (f := Channel.clearFc) fun _ => rfl]; rfl
  case clrld ch => rw [State.setChan_restamp x y s _ (f := Channel.clearLd) fun _ => rfl]; rfl

end

/-- No consumer operation writes a buffer, a cursor or a timestamp. -/
theorem exec_consumer_keeps {s t : State} {i : Instr} {k : Nat} {c' : Channel} (hi : i.port = .consumer)
    (h : exec i s = .next t) (hc' : t.chans[k]? = some c') :
    ∃ c, s.chans[k]? = some c ∧ c'.buf = c.buf ∧ c'.wcur = c.wcur ∧ c'.lastTs = c.lastTs := by
  obtain ⟨_, _, _, hlen, _⟩ := exec_keeps h
  have hc := State.getElem?_chan (s := s) (ch := k) (hlen ▸ (List.getElem?_eq_some_iff.1 hc').1)
  refine ⟨_, hc, ?_⟩
  rcases exec_record h hc hc' with rfl | ⟨_, _, rfl, _⟩ | ⟨_, _, _, rfl⟩ | ⟨_, _, _, rfl⟩
  · exact ⟨rfl, rfl, rfl⟩
  · cases hi
  · exact ⟨rfl, rfl, rfl⟩
  · exact ⟨rfl, rfl, rfl⟩

/-- Settles O45: rejecting a consumer operation and performing it both commute with replacing the two fields. -/
theorem consumerNeverTouchesTimestampOrCursor : Obligations.ConsumerNeverTouchesTimestampOrCursor :=
  fun s _ _ x y hi h => ⟨fun _ _ => exec_consumer_keeps hi h,
    exec_of_effect (f := State.restamp x y) rfl (fun _ => State.answer_restamp ..) (effect_restamp x y hi s) h⟩

/-! ## DISPATCH (R118, R119) -/

/-- The record that a DISPATCH leaves of its channel, seen from before its first gap: the reads leave it alone (R50). -/
def dispatchRecord (cfg : Config) (ch : ChanNo) (gap1 gap2 gap3 : List Instr) (c : Channel) : Channel :=
  (chanRun cfg ch.toNat gap3 (chanRun cfg ch.toNat (gap1 ++ gap2) c).clearFc).clearLd

/-- An operation answers a next state, and there the channel's record is what the operation makes of it. -/
theorem exec_next_has {s : State} {ch : ChanNo} {c : Channel} (i : Instr) (hc : s.Has ch c)
    (hn : notTarget s.cfg ch.toNat = true) :
    ∃ t, exec i s = .next t ∧ t.cfg = s.cfg ∧ t.Has ch (chanEffect s.cfg ch.toNat i c) := by
  obtain ⟨t, ht⟩ := exec_next i s
  obtain ⟨hcfg, _⟩ := exec_keeps ht
  exact ⟨t, ht, hcfg, exec_has hc hn ht⟩

/-- A DISPATCH that finds `fc` set runs its whole sequence, and forwards what the buffer decodes to after the first gap.
-/
theorem dispatchWith_forwards {s : State} {ch : ChanNo} {c : Channel} (gap1 gap2 gap3 : List Instr) (hc : s.Has ch c)
    (hn : notTarget s.cfg ch.toNat = true) (hfc : c.fc = true) :
    ∃ t v, dispatchWith ch gap1 gap2 gap3 s = .next (t, some v) ∧
      t.Has ch (dispatchRecord s.cfg ch gap1 gap2 gap3 c) ∧
      DecodesBuffer s.cfg (chanRun s.cfg ch.toNat gap1 c).buf v := by
  have hrdfc := exec_rdfc_has hc
  rw [hfc] at hrdfc
  obtain ⟨s2, hgap1, hcfg2, hc2⟩ := runInstrs_has gap1
    (s := { s with sync := .responded { status := 0, data := zextFlag true } }) hc hn
  dsimp only at hcfg2 hc2
  obtain ⟨v, draws, hdecode, hv⟩ := exec_decode_answers hc2
  obtain ⟨s4, hgap2, hcfg4, hc4⟩ := runInstrs_has gap2
    (s := { s2 with sync := .responded { status := 0, data := v }, draws := draws }) hc2 (hcfg2 ▸ hn)
  dsimp only at hcfg4 hc4
  rw [hcfg2] at hv hcfg4 hc4
  obtain ⟨s5, hclrfc, hcfg5, hc5⟩ := exec_next_has (.clrfc ch) hc4 (hcfg4 ▸ hn)
  rw [hcfg4] at hcfg5 hc5
  obtain ⟨s6, hgap3, hcfg6, hc6⟩ := runInstrs_has gap3 hc5 (hcfg5 ▸ hn)
  rw [hcfg5] at hcfg6 hc6
  obtain ⟨s7, hclrld, _, hc7⟩ := exec_next_has (.clrld ch) hc6 (hcfg6 ▸ hn)
  rw [hcfg6] at hc7
  refine ⟨s7, v, ?_, ?_, hv⟩
  · simp only [dispatchWith, hrdfc, andThen_next, hgap1, hdecode, hgap2, hclrfc, hgap3, hclrld]
    rfl
  · simpa [dispatchRecord, chanRun_append, chanEffect] using hc7

/-- A DISPATCH that finds `fc` clear issues only its RDFC. -/
theorem dispatchWith_of_clear {s : State} {ch : ChanNo} {c : Channel} (gap1 gap2 gap3 : List Instr) (hc : s.Has ch c)
    (hfc : c.fc = false) :
    dispatchWith ch gap1 gap2 gap3 s = .next ({ s with sync := .responded { status := 0, data := 0 } }, none) := by
  have hrdfc := exec_rdfc_has hc
  rw [hfc] at hrdfc
  rw [dispatchWith, hrdfc]
  rfl

theorem noLeader_append {cfg : Config} {ds es : List Tick} :
    noLeader cfg (ds ++ es) = true ↔ noLeader cfg ds = true ∧ noLeader cfg es = true := by
  simp [noLeader]

/-- Without a capture and without a leader in the gaps, a DISPATCH leaves the channel in IDLE, with its buffer and its
cursor, and the first gap leaves the buffer. -/
theorem dispatchRecord_quiet {cfg : Config} {ch : ChanNo} {gap1 gap2 gap3 : List Instr} {c : Channel}
    (hd : c.ld = false) (hcur : c.wcur.toNat ≠ cfg.samples)
    (hl : noLeader cfg (deltasOn cfg ch c.lastTs (gap1 ++ gap2 ++ gap3)) = true) :
    (dispatchRecord cfg ch gap1 gap2 gap3 c).flagState = .idle ∧
    (dispatchRecord cfg ch gap1 gap2 gap3 c).buf = c.buf ∧
    (dispatchRecord cfg ch gap1 gap2 gap3 c).wcur = c.wcur ∧
    (chanRun cfg ch.toNat gap1 c).buf = c.buf := by
  rw [deltasOn_append, noLeader_append] at hl
  obtain ⟨hl12, hl3⟩ := hl
  obtain ⟨hd12, hcur12, hbuf12, _, _⟩ := chanRun_quiet hl12 hd hcur
  obtain ⟨_, hcur3, hbuf3, _, hfc3⟩ :=
    chanRun_quiet (c := (chanRun cfg ch.toNat (gap1 ++ gap2) c).clearFc) hl3 hd12 (hcur12.symm ▸ hcur)
  rw [deltasOn_append, noLeader_append] at hl12
  obtain ⟨_, _, hbuf1, _, _⟩ := chanRun_quiet hl12.1 hd hcur
  refine ⟨?_, hbuf3.trans hbuf12, hcur3.trans hcur12, hbuf1⟩
  simp [Channel.flagState, dispatchRecord, Channel.clearLd, hfc3 rfl]

/-- Settles O58: in COMPLETE nothing is being captured, so the gaps leave the buffer and the cursor. -/
theorem undisturbedDispatchForwardsTheFrame : Obligations.UndisturbedDispatchForwardsTheFrame := by
  intro s c ch gap1 gap2 gap3 _ hc hn _
  refine ⟨fun hf hcur hl => ?_, dispatchWith_of_clear gap1 gap2 gap3 hc⟩
  have hld : c.ld = false := Channel.flagState_eq_idle_or_complete.1 (.inr hf)
  have hfc : c.fc = true := Channel.flagState_eq_complete_or_recapture.1 (.inl hf)
  obtain ⟨t, v, hrun, ht, hv⟩ := dispatchWith_forwards gap1 gap2 gap3 hc hn hfc
  obtain ⟨hidle, hbuf, hkeep, hbuf1⟩ := dispatchRecord_quiet hld (Nat.ne_of_lt hcur) hl
  exact ⟨t, v, _, hrun, ht, hidle, hbuf, hkeep, hbuf1 ▸ hv⟩

end Sys2Proof.Machine
end

section
/-! PROOFS. Rejects (60_exceptions.md): which code a malformed word is rejected with (R66, R130, R131), and that a
rejected word changes nothing (R136). -/

namespace Sys2Proof.Machine

/-! ## The checks of R66 as facts about the word's fields -/

/-- The operation code of a word as a shift (R60). -/
theorem toNat_opField (w : Word) : (opField w).toNat = (w >>> 28).toNat := by
  rw [opField, BitVec.extractLsb'_toNat, BitVec.toNat_ushiftRight]
  have hw := w.isLt
  omega

/-- EDGE is the one operation of the capture port (R62). -/
theorem port_ne_iff (o : Opcode) (p : Port) : o.port ≠ p ↔ ¬ (o.code.toNat = 1 ↔ p = .capture) := by
  cases o <;> cases p <;> decide

/-- The fields that an operation does not read, by its code (R63). -/
theorem reservedZero_eq_false_iff (o : Opcode) (w : Word) :
    reservedZero o w = false ↔
      (o.code.toNat = 1 ∧ (idxField w).toNat ≠ 0) ∨ (o.code.toNat = 4 ∧ (tsField w).toNat ≠ 0) ∨
      (o.code.toNat ≠ 1 ∧ o.code.toNat ≠ 4 ∧ ((idxField w).toNat ≠ 0 ∨ (tsField w).toNat ≠ 0)) := by
  cases o <;> simp [reservedZero, Opcode.code, ← BitVec.toNat_inj, imp_iff_not_or]

/-- Only RDSAMP has an index that can be out of range (R64). -/
theorem indexInRange_operands_eq_false_iff (cfg : Config) (o : Opcode) (w : Word) :
    indexInRange cfg (operands o w) = false ↔ o.code.toNat = 4 ∧ cfg.capacity ≤ (idxField w).toNat := by
  cases o <;> simp [indexInRange, operands, Opcode.code]

theorem operands_chan (o : Opcode) (w : Word) : (operands o w).chan = chField w := by cases o <;> rfl

/-! ## The order of the checks (R66) -/

/-- A word with a reserved operation code fails the first check (R61). -/
theorem decodeCmd_reservedOpcode {cfg : Config} {p : Port} {w : Word} (h : opcodeOf (opField w) = none) :
    decodeCmd cfg p w = .error .reservedOpcode := by
  simp [decodeCmd, decodeFields, h]

/-- The other four checks, in their order, on a word of an assigned operation. -/
theorem decodeCmd_of_opcode {cfg : Config} {p : Port} {w : Word} {o : Opcode} (h : opcodeOf (opField w) = some o) :
    decodeCmd cfg p w =
      if o.port ≠ p then .error .wrongPort
      else if reservedZero o w = false then .error .reservedField
      else if cfg.channels ≤ (chField w).toNat then .error .channelRange
      else if indexInRange cfg (operands o w) = false then .error .indexRange
      else .ok (operands o w) := by
  by_cases hp : o.port = p
  · cases hz : reservedZero o w with
    | false => simp [decodeCmd, decodeFields, h, hp, hz]
    | true =>
      have hrange := rangeReject_cases cfg (operands o w)
      rw [operands_chan] at hrange
      rcases hrange with ⟨hch, e⟩ | ⟨hch, hidx, e⟩ | ⟨hch, hidx, e⟩ <;>
        simp [decodeCmd, decodeFields, Nat.not_le_of_lt, *]
  · simp [decodeCmd, decodeFields, h, hp]

/-- Settles O4: a reserved code fails the first check, and the other causes are the conditions of the other checks. -/
theorem lowestApplicableCodeIsReported : Obligations.LowestApplicableCodeIsReported := by
  intro cfg p w
  simp only [← toNat_opField, ← toNat_chField, ← toNat_idxField, ← toNat_tsField, ← opcodeOf_eq_none]
  cases ho : opcodeOf (opField w) with
  | none => simp [decodeCmd_reservedOpcode ho, RejectCode.status]
  | some o =>
    have hdec := decodeCmd_of_opcode (cfg := cfg) (p := p) ho
    rw [opcodeOf_eq_some.1 ho, ← port_ne_iff, ← reservedZero_eq_false_iff, ← indexInRange_operands_eq_false_iff]
    refine ⟨nofun, fun _ h2 => ?_, fun _ h2 h3 => ?_, fun _ h2 h3 h4 => ?_, fun _ h2 h3 h4 h5 => ?_,
      fun _ h2 h3 h4 h5 => ⟨operands o w, ?_⟩, rfl, rfl, rfl, rfl, rfl⟩
    · rw [hdec, if_pos h2]
    · rw [hdec, if_neg h2, if_pos h3]
    · rw [hdec, if_neg h2, if_neg h3, if_pos h4]
    · rw [hdec, if_neg h2, if_neg h3, if_neg h4, if_pos h5]
    · rw [hdec, if_neg h2, if_neg h3, if_neg h4, if_neg h5]

/-! ## What a reject leaves unchanged (R136) -/

/-- Settles O8: the step of a linearization point is its word's, which is rejected. -/
theorem rejectedWordChangesNothing : Obligations.RejectedWordChangesNothing :=
  ⟨fun _ _ _ _ he hp hd => (step_accept_word he hp).trans (runWord_error hd),
    fun _ _ _ he hy hd => (step_perform_word he hy).trans (runWord_error hd)⟩

end Sys2Proof.Machine
end

section
/-! PROOFS. Reset and hazards (70_reset_and_hazards.md): reset and the first EDGE after it (R150, R152), what a
completed buffer holds (R160), and the hazards of a leader or a completion at the wrong time (R162 to R164). -/

namespace Sys2Proof.Machine

/-! ## Reset (R150, R152) -/

/-- Every channel of the machine right after reset has its reset record. -/
theorem State.resetOf_getElem? {cfg : Config} {ch : Nat} (h : ch < cfg.channels) :
    (State.resetOf cfg).chans[ch]? = some (Channel.reset (cfg.lastTs0 ch)) := by
  simp [h]

/-- Settles O9: the reset step leaves the state that `State.resetOf` gives, where every record is a reset record. -/
theorem resetInputResetsEveryChannel : Obligations.ResetInputResetsEveryChannel := by
  refine ⟨fun s rest hs => ?_, fun cfg => ⟨by simp, fun ch hch => ?_⟩⟩
  · exact ⟨_, step_reset (nextEvent_of_schedule hs), rfl, rfl, rfl, rfl, rfl⟩
  · refine ⟨_, State.resetOf_getElem? hch, rfl, rfl, rfl, fun x hx => ?_, fun i => rfl⟩
    simp [Channel.reset, Config.lastTs0, List.getD, hx]

/-- A cursor at 0 counts no whole frame (R8). -/
theorem Cursor.zero_ne_samples {cfg : Config} (hw : cfg.wf = true) : (0 : Cursor).toNat ≠ cfg.samples := by
  have hT := Config.two_le_samples hw
  exact Nat.ne_of_lt (show 0 < cfg.samples by omega)

/-- Settles O27: the EDGE's step on the reset record is case E1 or E2 of R91, by the shape of its delta. -/
theorem firstEdgeMeasuresFromTheResetTimestamp : Obligations.FirstEdgeMeasuresFromTheResetTimestamp := by
  intro cfg ch ts hw hch _ d
  obtain ⟨t, ht, hrec, _⟩ := exec_edge_has ts hw (s := State.resetOf cfg) ⟨hch, State.resetOf_getElem? hch⟩
  refine ⟨t, _, ht, hrec, edgeStep_lastTs .., ?_⟩
  dsimp only [State.resetOf_cfg]
  cases hl : leaderShaped cfg d with
  | true =>
    rw [edgeStep_leader (c := Channel.reset (cfg.lastTs0 ch.toNat)) hw hl]
    exact ⟨rfl, fun _ => ⟨rfl, rfl, rfl⟩, nofun⟩
  | false =>
    rw [edgeStep_ignored (c := Channel.reset (cfg.lastTs0 ch.toNat)) (Cursor.zero_ne_samples hw) hl rfl]
    exact ⟨rfl, nofun, fun _ => ⟨rfl, rfl, fun _ => rfl⟩⟩

/-! ## What a completed buffer holds (R160) -/

/-- Settles O54: the last edge step leaves the channel in COMPLETE with its cursor at 0, where nothing is stored until a
leader comes. -/
theorem completedFrameStaysUntilTheNextLeader : Obligations.CompletedFrameStaysUntilTheNextLeader := by
  intro s c ch is js ts hw hc hn hld ds hlen hone hquiet
  obtain ⟨t, ht, _, hch⟩ := runInstrs_has (is ++ [.edge ch ts] ++ js) hc hn
  obtain ⟨hfull, hidle, hzero, hbuf⟩ := chanRun_completes hw hld hone hlen
  have hlast : (chanRun s.cfg ch.toNat (is ++ [.edge ch ts]) c).lastTs = ts := by
    simp [chanRun_lastTs, stampsOn_append, stampsOn]
  rw [← hlast] at hquiet
  obtain ⟨_, _, hbuf', hfull', _⟩ := chanRun_quiet hquiet hidle (hzero ▸ Cursor.zero_ne_samples hw)
  rw [chanRun_append] at hch
  exact ⟨t, _, ht, hch, fun i hi => by rw [hbuf', hbuf, if_pos hi], fun hfc => (hfull' hfc).trans hfull⟩

/-! ## Hazard H1: a leader before the DECODE (R162) -/

/-- Settles O55: the capture covers the buffer up to its last sample, and DECODE reads every space, the later ones where
the old frame still stands. -/
theorem leaderBeforeDecodeMixesTwoFrames : Obligations.LeaderBeforeDecodeMixesTwoFrames := by
  intro s c ch is hw hc hn hld hfc hfull hwritten ds hone hfour hlen
  have hspace := Config.lastSpace_lt_samples hw
  have hbits := Config.nbits_le hw
  obtain ⟨t, ht, hcfg, hch⟩ := runInstrs_has is hc hn
  obtain ⟨hcap, _, hbuf, hflag⟩ := chanRun_capture hw hld hone hlen
  obtain ⟨v, draws, hdec, hv⟩ := exec_decode_answers hch
  rw [hcfg] at hv
  refine ⟨t, _, _, v, ht, hch, by simp [Channel.flagState, hcap, hflag hfc, hfull], hdec, rfl, fun b hb => ?_⟩
  obtain ⟨hbit, _⟩ := hv b (by omega)
  refine ⟨fun hnew => ?_, fun hold => ?_⟩
  · have hlt : 3 + 2 * b < ds.length := by omega
    have hd : ds[3 + 2 * b]? = some _ := List.getElem?_eq_getElem hlt
    exact ⟨_, hd, hbit hb _ (by rw [hbuf, if_pos hlt, hd])⟩
  · have hge : ¬ 3 + 2 * b < ds.length := by omega
    obtain ⟨d, hd⟩ := Option.isSome_iff_exists.1 (hwritten (3 + 2 * b) (by omega))
    exact ⟨d, hd, hbit hb d (by rw [hbuf, if_neg hge, hd])⟩

/-! ## Sequences of EDGEs (R16, R45) -/

theorem onlyEdges_iff {is : List Instr} : onlyEdges is = true ↔ ∀ i ∈ is, ∃ ch ts, i = .edge ch ts := by
  induction is with
  | nil => simp [onlyEdges]
  | cons i is ih => cases i <;> simp [onlyEdges, ih]

theorem clrfc_notMem_of_onlyEdges {is : List Instr} (h : onlyEdges is = true) (ch : ChanNo) : .clrfc ch ∉ is :=
  fun hm => by simpa using onlyEdges_iff.1 h _ hm

theorem clrld_notMem_of_onlyEdges {is : List Instr} (h : onlyEdges is = true) (ch : ChanNo) : .clrld ch ∉ is :=
  fun hm => by simpa using onlyEdges_iff.1 h _ hm

/-! ## Hazard H2: a completion inside a DISPATCH (R163) -/

/-- EDGEs that give the channel the deltas of one whole frame leave them in its buffer. -/
theorem chanRun_frame_buf {s : State} {ch : ChanNo} {c : Channel} {is : List Instr} (hw : s.cfg.wf = true)
    (hc : s.Has ch c) (hn : notTarget s.cfg ch.toNat = true) (he : onlyEdges is = true)
    (hone : oneCapture s.cfg (deltasOn s.cfg ch c.lastTs is) = true)
    (hlen : (deltasOn s.cfg ch c.lastTs is).length = s.cfg.samples) :
    ∀ i, i < s.cfg.samples → (chanRun s.cfg ch.toNat is c).buf.read i = (deltasOn s.cfg ch c.lastTs is)[i]? := by
  have hfc := clrfc_notMem_of_onlyEdges he ch
  have hld := clrld_notMem_of_onlyEdges he ch
  obtain ⟨t, c', ht, ⟨_, hrec⟩, _, _, _, _, hbuf, _⟩ :=
    oversizedTraceCompletesAtItsLastSample s c ch is hw hc hn hld hfc hone (Nat.le_of_eq hlen.symm)
  obtain ⟨t', ht', _, _, hrec'⟩ := runInstrs_has is hc hn
  obtain rfl := Host.Outcome.next.inj (ht.symm.trans ht')
  obtain rfl := Option.some.inj (hrec.symm.trans hrec')
  exact hbuf

/-- A value that a buffer decodes to is one that the frame in the buffer decodes to. -/
theorem decodesDeltas_of_decodesBuffer {cfg : Config} {ds : List Tick} {m : Memory} {v : Word}
    (hm : ∀ i, i < ds.length → m.read i = ds[i]?) (hv : DecodesBuffer cfg m v) : DecodesDeltas cfg ds v := by
  intro b hb
  obtain ⟨hbit, hzero⟩ := hv b hb
  refine ⟨fun hn d hd => hbit hn d ?_, hzero⟩
  rw [hm _ (List.getElem?_eq_some_iff.1 hd).1, hd]

/-- With nothing between its two clears, a DISPATCH leaves the channel in IDLE. -/
theorem dispatchRecord_idle (cfg : Config) (ch : ChanNo) (gap1 gap2 : List Instr) (c : Channel) :
    (dispatchRecord cfg ch gap1 gap2 [] c).flagState = .idle := rfl

/-- Settles O56: DECODE reads the buffer before the gap or after it, and the clears follow the completion. -/
theorem completionInsideADispatchIsLost : Obligations.CompletionInsideADispatchIsLost := by
  intro s c ch gap hw hc hn he hfc _ ds hone hlen
  have hbuf := chanRun_frame_buf hw hc hn he hone hlen
  obtain ⟨t, v, hrun, ht, hv⟩ := dispatchWith_forwards [] gap [] hc hn hfc
  obtain ⟨t', v', hrun', ht', hv'⟩ := dispatchWith_forwards gap [] [] hc hn hfc
  exact ⟨t, v, _, t', v', _, hrun, ht, dispatchRecord_idle .., hv, hbuf, hrun', ht', dispatchRecord_idle ..,
    decodesDeltas_of_decodesBuffer (fun i hi => hbuf i (hlen ▸ hi)) hv'⟩

/-! ## Hazard H3: a capture that began inside a DISPATCH (R164) -/

theorem Channel.detect_clearFc (cfg : Config) (d : Tick) (c : Channel) :
    c.clearFc.detect cfg d = (c.detect cfg d).clearFc := by
  unfold Channel.detect; split <;> rfl

theorem Channel.store_clearFc (cfg : Config) (d : Tick) (c : Channel) :
    c.clearFc.store cfg d = (c.store cfg d).clearFc := by
  by_cases h : c.Stores cfg
  · rw [Channel.store_of_stores d h, Channel.store_of_stores (c := c.clearFc) d h]; rfl
  · rw [Channel.store_of_not_stores d h, Channel.store_of_not_stores (c := c.clearFc) d h]

theorem Channel.finish_clearFc (cfg : Config) (c : Channel) :
    (c.clearFc.finish cfg).clearFc = (c.finish cfg).clearFc := by
  by_cases h : c.wcur.toNat = cfg.samples
  · rw [Channel.finish_of_full h, Channel.finish_of_full (c := c.clearFc) h]; rfl
  · rw [Channel.finish_of_not_full h, Channel.finish_of_not_full (c := c.clearFc) h]; rfl

/-- An edge step does not read `fc`. -/
theorem edgeStep_clearFc (cfg : Config) (ts : Tick) (c : Channel) :
    (edgeStep cfg ts c.clearFc).clearFc = (edgeStep cfg ts c).clearFc := by
  have hstamp : { c.clearFc with lastTs := ts } = ({ c with lastTs := ts } : Channel).clearFc := rfl
  have hlast : c.clearFc.lastTs = c.lastTs := rfl
  unfold edgeStep
  dsimp only
  rw [hstamp, hlast, Channel.detect_clearFc, Channel.store_clearFc, Channel.finish_clearFc]

/-- No operation reads `fc` to write another field. -/
theorem chanEffect_clearFc (cfg : Config) (k : Nat) (i : Instr) (c : Channel) :
    (chanEffect cfg k i c.clearFc).clearFc = (chanEffect cfg k i c).clearFc := by
  cases i with
  | edge ch ts =>
    dsimp only [chanEffect]
    split
    · exact edgeStep_clearFc cfg ts c
    · rfl
  | clrfc ch => dsimp only [chanEffect]; split <;> rfl
  | clrld ch => dsimp only [chanEffect]; split <;> rfl
  | _ => rfl

theorem chanRun_congr_clearFc {cfg : Config} {k : Nat} {is : List Instr} {c c' : Channel} (h : c.clearFc = c'.clearFc) :
    (chanRun cfg k is c).clearFc = (chanRun cfg k is c').clearFc := by
  induction is generalizing c c' with
  | nil => exact h
  | cons i is ih =>
    exact ih (by rw [← chanEffect_clearFc, h, chanEffect_clearFc])

theorem chanRun_clearFc (cfg : Config) (k : Nat) (is : List Instr) (c : Channel) :
    (chanRun cfg k is c.clearFc).clearFc = (chanRun cfg k is c).clearFc :=
  chanRun_congr_clearFc rfl

/-- Of a capture that cannot complete, an edge step keeps `ld`; a leader-shaped delta sets it. -/
theorem edgeStep_ld_of_unfinished {cfg : Config} {ts : Tick} {c : Channel} {n : Nat} (hw : cfg.wf = true)
    (h : c.Unfinished cfg (n + 1)) (hl : c.ld = true ∨ leaderShaped cfg (duration cfg ts c.lastTs) = true) :
    (edgeStep cfg ts c).ld = true := by
  rcases hl with hd | hl
  · obtain ⟨hfc, _⟩ := edgeStep_unfinished hw ts h
    rcases edgeStep_flags cfg ts c with ⟨hf, _⟩ | ⟨_, hkeep⟩
    · rw [hfc] at hf; cases hf
    · exact hkeep hd
  · rw [edgeStep_leader hw hl]

/-- A capture that cannot complete goes on until a CLRLD, and a leader-shaped delta starts one. -/
theorem chanRun_ld_of_unfinished {cfg : Config} {ch : ChanNo} {is : List Instr} {c : Channel} (hw : cfg.wf = true)
    (hno : .clrld ch ∉ is) (h : c.Unfinished cfg (stampsOn ch is).length)
    (hl : c.ld = true ∨ (deltasOn cfg ch c.lastTs is).any (leaderShaped cfg) = true) :
    (chanRun cfg ch.toNat is c).ld = true := by
  induction is generalizing c with
  | nil => simpa [chanRun, deltasOn, stampsOn, deltasFrom] using hl
  | cons i is ih =>
    rw [List.mem_cons, not_or] at hno
    rw [chanRun]
    rcases edgeOn_or_not ch i with ⟨ts, rfl⟩ | he
    · have hun : c.Unfinished cfg ((stampsOn ch is).length + 1) := by simpa [stampsOn] using h
      rw [deltasOn_cons_edge, List.any_cons, Bool.or_eq_true, ← or_assoc] at hl
      rw [chanEffect_edge]
      refine ih hno.2 (edgeStep_unfinished hw ts hun) ?_
      rw [edgeStep_lastTs]
      exact hl.imp_left (edgeStep_ld_of_unfinished hw hun)
    · rw [deltasOn_cons_other _ _ he] at hl
      rw [stampsOn_cons_other is he] at h
      refine ih hno.2 (chanEffect_unfinished he h) ?_
      rcases chanEffect_other (cfg := cfg) c he (Ne.symm hno.1) with e | ⟨_, e⟩ <;> rw [e] <;> exact hl

/-- While the gaps' edges cannot complete a frame, a DISPATCH leaves the channel in IDLE, its cursor below `T`. -/
theorem dispatchRecord_unfinished {cfg : Config} {ch : ChanNo} {gap1 gap2 gap3 : List Instr} {c : Channel}
    (hw : cfg.wf = true) (h : c.clearFc.Unfinished cfg (stampsOn ch (gap1 ++ gap2 ++ gap3)).length) :
    (dispatchRecord cfg ch gap1 gap2 gap3 c).flagState = .idle ∧
    (dispatchRecord cfg ch gap1 gap2 gap3 c).wcur.toNat < cfg.samples := by
  rw [stampsOn_append, List.length_append] at h
  obtain ⟨_, hleft⟩ := chanRun_unfinished hw h
  obtain ⟨hfc, hcur, _⟩ := chanRun_unfinished (n := 0) (is := gap3) hw
    (c := (chanRun cfg ch.toNat (gap1 ++ gap2) c.clearFc).clearFc) ⟨rfl, hleft⟩
  rw [dispatchRecord, ← chanRun_clearFc]
  exact ⟨by simp [Channel.flagState, Channel.clearLd, hfc], hcur⟩

theorem andThen_eq_next {α : Type} {o : Host.Outcome State Fault Refusal} {k : State → Host.Outcome α Fault Refusal}
    {x : α} : andThen o k = .next x ↔ ∃ s, o = .next s ∧ k s = .next x := by
  cases o <;> simp [andThen]

/-- A DISPATCH keeps the configuration (R28). -/
theorem dispatchWith_cfg {s t : State} {ch : ChanNo} {gap1 gap2 gap3 : List Instr} {o : Option Word}
    (h : dispatchWith ch gap1 gap2 gap3 s = .next (t, o)) : t.cfg = s.cfg := by
  obtain ⟨s1, h1, h⟩ := andThen_eq_next.1 h
  have e1 := (exec_keeps h1).1
  split at h
  · obtain ⟨s2, h2, h⟩ := andThen_eq_next.1 h
    obtain ⟨s3, h3, h⟩ := andThen_eq_next.1 h
    obtain ⟨s4, h4, h⟩ := andThen_eq_next.1 h
    obtain ⟨s5, h5, h⟩ := andThen_eq_next.1 h
    obtain ⟨s6, h6, h⟩ := andThen_eq_next.1 h
    obtain ⟨s7, h7, h⟩ := andThen_eq_next.1 h
    cases h
    rw [(exec_keeps h7).1, (runInstrs_keeps h6).1, (exec_keeps h5).1, (runInstrs_keeps h4).1, (exec_keeps h3).1,
      (runInstrs_keeps h2).1, e1]
  · cases h
    exact e1

/-- Settles O57: the edges start a capture that they cannot complete, and after the DISPATCH nothing is being captured.
`fc`, which is set at first, decides none of this. -/
theorem dispatchAbortsACaptureThatBeganInsideIt : Obligations.DispatchAbortsACaptureThatBeganInsideIt := by
  intro s c ch gap1 gap2 gap3 js hw hc hn hedges _ hfc hld hcur hleader hfew
  have hun : c.clearFc.Unfinished s.cfg (stampsOn ch (gap1 ++ gap2 ++ gap3)).length :=
    ⟨rfl, hcur, by rw [Channel.captured_of_not_ld (c := c.clearFc) hld, Nat.zero_add]; exact hfew⟩
  obtain ⟨u0, hu0, _, hc0⟩ := runInstrs_has (gap1 ++ gap2 ++ gap3) hc hn
  have hstarted := chanRun_ld_of_unfinished hw (clrld_notMem_of_onlyEdges hedges ch) hun (.inr hleader)
  have hld0 : (chanRun s.cfg ch.toNat (gap1 ++ gap2 ++ gap3) c).ld = true :=
    (congrArg Channel.ld (chanRun_clearFc ..)).symm.trans hstarted
  obtain ⟨t, v, hrun, ht, _⟩ := dispatchWith_forwards gap1 gap2 gap3 hc hn hfc
  obtain ⟨hidle, hcur'⟩ := dispatchRecord_unfinished hw hun
  refine ⟨u0, _, t, v, _, hu0, hc0, hld0, hrun, ht, hidle, fun hquiet => ?_⟩
  have hcfg := dispatchWith_cfg hrun
  obtain ⟨u, hu, _, hcu⟩ := runInstrs_has js ht (hcfg ▸ hn)
  rw [hcfg] at hcu
  obtain ⟨hld', _, hbuf, _, hfc'⟩ := chanRun_quiet hquiet rfl (Nat.ne_of_lt hcur')
  refine ⟨u, _, hu, hcu, hbuf, ?_⟩
  simp [Channel.flagState, hld', hfc' (Channel.flagState_eq_idle_or_capturing.1 (.inl hidle))]

end Sys2Proof.Machine
end
